-- ==== Sys2Proof/Word.lean ====
section
/-! DEFINITION. The word types of the stepper coil sequencer, each of the width the spec gives the value. -/

namespace Sys2Proof

/-- A command word, 32 bits (spec/30_encoding.md R80). -/
abbrev Word := BitVec 32

/-- A duty or a curve entry, and one byte of a command word on a byte-wide link (R9 `DUTY_WIDTH`, R59, R65). -/
abbrev Byte := BitVec 8

/-- A pin identifier, 8 bits unsigned (spec/10_state.md R20). -/
abbrev Pin := BitVec 8

/-- The step cursor, 16 bits two's complement (R26). -/
abbrev Cursor := BitVec 16

/-- A count of microseconds below 2^24: the `HOLD` operand (R86) and the argument of a `Delay` event (R31). -/
abbrev Micros := BitVec 24

end Sys2Proof
end

