-- ==== Sys2Proof/Config.lean ====
section
/-! DEFINITION. What the host fixes when it constructs the block (the configuration inputs), and the OPEN parameters
of spec/00_scope.md R9: constants with no body, so that nothing can be proved from a value of theirs.
Machine/Tables.lean turns the free constants into the scaling and the curves the spec admits. -/

namespace Sys2Proof

/-- The configuration inputs of the PWM-capable construction beyond the coil pins (R9, R20, R23): the two PWM pins and
the requested power factor, any rational number. -/
structure PwmInputs where
  pinA : Pin
  pinB : Pin
  powerFactor : Rat
  deriving DecidableEq, Repr

/-- The configuration inputs of one construction (spec/70_reset_and_hazards.md R201).
`pwm = none` is `STEPSEQ-NOPWM` (`HAS_PWM = false`), `pwm = some _` is `STEPSEQ-PWM` (R3). -/
structure Inputs where
  pinA1 : Pin
  pinA2 : Pin
  pinB1 : Pin
  pinB2 : Pin
  pwm : Option PwmInputs
  deriving DecidableEq, Repr

/-- The pin identifiers a configuration supplies, in the order reset configures them (R201, decision D19):
A1, A2, B1, B2, then PWMA, PWMB where there is PWM. -/
def Inputs.pins (c : Inputs) : List Pin :=
  [c.pinA1, c.pinA2, c.pinB1, c.pinB2] ++
    match c.pwm with
    | none => []
    | some u => [u.pinA, u.pinB]

/-- The configuration `State.reset` is constructed from.
DESIGN CHOICE (unsafe, log entry 1): every value is a configuration input that the host chooses (R9); these are the
values of spec/95_test_vectors.md, Program 1 and vector V-I1. -/
def Config.resetInputs : Inputs :=
  ⟨2, 3, 4, 5, some ⟨9, 10, 1⟩⟩

/-- A number that does not decrease when either argument increases: the shape property S4 gives the OPEN `SCALE`
(spec/42_step_microstep.md R142). The field defaults only show that such a function exists. -/
structure Config.Scaling where
  apply : Nat → Rat → Nat := fun _ _ => 0
  mono : ∀ v w p q, v ≤ w → p ≤ q → apply v p ≤ apply w q := by intros; exact Nat.le_refl _
  deriving Inhabited

/-- A number that does not decrease along the ramp points: the shape of one coil's curve over one window
(spec/20_memory.md R61). The field defaults only show that such a function exists. -/
structure Config.Ramp where
  height : Nat → Nat := fun _ => 0
  mono : ∀ j k, j ≤ k → height j ≤ height k := by intros; exact Nat.le_refl _
  deriving Inhabited

/-- FREE (log entry 2): the OPEN duty scaling, before properties S1 to S3 are imposed on it (R9, R142, decision D6). -/
opaque Config.freeScale : Config.Scaling

/-- FREE (log entry 3): the shape of the OPEN curve `CURVE_A` over each window (R9, R59, decision D9). -/
opaque Config.freeCurveA : Nat → Config.Ramp

/-- FREE (log entry 3): the shape of the OPEN curve `CURVE_B` over each window (R9, R59, decision D9). -/
opaque Config.freeCurveB : Nat → Config.Ramp

/-- FREE (log entry 3): whether window `k` is case (a) of R61, `CURVE_A` rising; R62 leaves it open for windows 0, 2, 3. -/
opaque Config.freeWindowRises : Nat → Bool

/-- The two byte orders in which a byte-wide link may carry a command word (R65). -/
inductive ByteOrder where
  | leastFirst
  | mostFirst
  deriving DecidableEq, Repr, Inhabited

/-- FREE (log entry 4): the OPEN parameter `CMD_BYTE_ORDER` (R65, decision D24). -/
opaque Config.cmdByteOrder : ByteOrder

end Sys2Proof
end

