-- ==== Sys2Proof/Syntax.lean ====
section
/-! DEFINITION. The commands of the block: one constructor of `Instr` per row of spec/opcode_table.json, and the
assembly commands of spec/30_encoding.md R92. -/

namespace Sys2Proof

/-- The direction operand (spec/30_encoding.md R83). -/
inductive Dir where
  | forward
  | backward
  deriving DecidableEq, Repr

/-- The step modes: the four the source names (R84) and the four unrecognized ones, legal encodings too (R85). -/
inductive Mode where
  | single
  | double
  | interleave
  | microstep
  | m0
  | m5
  | m6
  | m7
  deriving DecidableEq, Repr

/-- A command, one constructor per row of the opcode map (R89), in the table's order.
Every value is a legal command: `DIR` has one bit and `HOLD` 24, and no `STEP` encoding is reserved (R88). -/
inductive Instr where
  | stepSingle (dir : Dir) (hold : Micros)
  | stepDouble (dir : Dir) (hold : Micros)
  | stepInterleave (dir : Dir) (hold : Micros)
  | stepMicrostep (dir : Dir) (hold : Micros)
  | stepM0 (dir : Dir) (hold : Micros)
  | stepM5 (dir : Dir) (hold : Micros)
  | stepM6 (dir : Dir) (hold : Micros)
  | stepM7 (dir : Dir) (hold : Micros)
  | release
  deriving DecidableEq, Repr

/-- `STEP(dir, mode, hold)`: the call surface's one step operation, as the row its mode selects (R82, R89). -/
def Instr.ofStep (m : Mode) (d : Dir) (h : Micros) : Instr :=
  match m with
  | .single => .stepSingle d h
  | .double => .stepDouble d h
  | .interleave => .stepInterleave d h
  | .microstep => .stepMicrostep d h
  | .m0 => .stepM0 d h
  | .m5 => .stepM5 d h
  | .m6 => .stepM6 d h
  | .m7 => .stepM7 d h

/-- The mode operand of an assembly command (R92): one of the four names, or `#n`, the raw `MODE` field. -/
inductive AsmMode where
  | single
  | double
  | interleave
  | microstep
  | raw (n : Nat)
  deriving DecidableEq, Repr

/-- An assembly command (R92). `hold = none` is the two-operand form, the only pseudo-instruction (R93). -/
inductive Asm where
  | step (dir : Dir) (mode : AsmMode) (hold : Option Nat)
  | release
  deriving DecidableEq, Repr

end Sys2Proof
end

