-- ==== Sys2Proof/WellFormed.lean ====
section
/-! DEFINITION. The checks on what the host supplies: a configuration and an assembly command.
`Instr` needs none: its operand types hold exactly the encodable values (spec/30_encoding.md R83, R86, R88). -/

namespace Sys2Proof

/-- A configuration is well formed when no two of the pins it supplies are equal (spec/10_state.md R21). -/
def Inputs.wellFormed (c : Inputs) : Bool :=
  decide c.pins.Nodup

/-- A raw mode `#n` has `n` in 0..7 (R92). -/
def AsmMode.wellFormed : AsmMode → Bool
  | .single => true
  | .double => true
  | .interleave => true
  | .microstep => true
  | .raw n => decide (n < 8)

/-- An assembly command is well formed when its raw mode is in 0..7 and its hold in [0, 16777215]:
"a larger value is an assembly error, not a truncation" (R92). -/
def Asm.wellFormed : Asm → Bool
  | .step _ m none => m.wellFormed
  | .step _ m (some n) => m.wellFormed && decide (n ≤ 16777215)
  | .release => true

end Sys2Proof
end

