-- ==== Sys2Proof/Decode.lean ====
section
/-! DEFINITION. The command decoder (spec/30_encoding.md R80 to R91), the encoder written from the same format table,
the opcode map, and the carriage of a command word over a byte-wide link (spec/20_memory.md R65). -/

namespace Sys2Proof

/-- The value of the `DIR` bit (R83). -/
def Dir.bit : Dir → BitVec 1
  | .forward => 0
  | .backward => 1

/-- The direction a `DIR` bit stands for (R83). -/
def Dir.ofBit (b : BitVec 1) : Dir :=
  if b = 0 then .forward else .backward

/-- The value of the `MODE` field (R84, R85). -/
def Mode.code : Mode → BitVec 3
  | .m0 => 0
  | .single => 1
  | .double => 2
  | .interleave => 3
  | .microstep => 4
  | .m5 => 5
  | .m6 => 6
  | .m7 => 7

/-- The mode a `MODE` field stands for; every value has one (R84, R85). -/
def Mode.ofCode (m : BitVec 3) : Mode :=
  if m = 0 then .m0
  else if m = 1 then .single
  else if m = 2 then .double
  else if m = 3 then .interleave
  else if m = 4 then .microstep
  else if m = 5 then .m5
  else if m = 6 then .m6
  else .m7

/-- The field `OP = w[31:28]` (R80). -/
def opField (w : Word) : BitVec 4 := w.extractLsb' 28 4

/-- The field `DIR = w[27]` (R82). -/
def dirField (w : Word) : BitVec 1 := w.extractLsb' 27 1

/-- The field `MODE = w[26:24]` (R82). -/
def modeField (w : Word) : BitVec 3 := w.extractLsb' 24 3

/-- The field `HOLD = w[23:0]` (R82). -/
def holdField (w : Word) : Micros := w.extractLsb' 0 24

/-- The bits `w[27:0]`, all zero in a `RELEASE` word (R87). -/
def lowField (w : Word) : BitVec 28 := w.extractLsb' 0 28

/-- The two kinds of reserved word (R88). -/
inductive Reserved where
  /-- `OP` is `0000` or lies in `0011` to `1111`. -/
  | op (w : Word)
  /-- A `RELEASE` word with a non-zero `w[27:0]`. -/
  | releaseOperand (w : Word)
  deriving DecidableEq, Repr

/-- The decoder of R90, total on all words. -/
def decode (w : Word) : Except Reserved Instr :=
  if opField w = 0b0001#4 then
    .ok (Instr.ofStep (Mode.ofCode (modeField w)) (Dir.ofBit (dirField w)) (holdField w))
  else if opField w = 0b0010#4 then
    if lowField w = 0#28 then .ok .release else .error (.releaseOperand w)
  else .error (.op w)

/-- A `STEP` word from its fields, most significant first (R82, R92). -/
def stepWord (m : Mode) (d : Dir) (h : Micros) : Word :=
  0b0001#4 ++ (d.bit ++ (m.code ++ h))

/-- The word of a command (R82, R87, R92). -/
def encode : Instr → Word
  | .stepSingle d h => stepWord .single d h
  | .stepDouble d h => stepWord .double d h
  | .stepInterleave d h => stepWord .interleave d h
  | .stepMicrostep d h => stepWord .microstep d h
  | .stepM0 d h => stepWord .m0 d h
  | .stepM5 d h => stepWord .m5 d h
  | .stepM6 d h => stepWord .m6 d h
  | .stepM7 d h => stepWord .m7 d h
  | .release => 0b0010#4 ++ 0#28

/-- A row of the opcode map: a word `w` selects it when `w &&& mask = code` (R89). -/
structure OpcodeRow where
  mnemonic : String
  code : Word
  mask : Word
  deriving DecidableEq, Repr

/-- A word selects a row (R89). -/
def OpcodeRow.selects (r : OpcodeRow) (w : Word) : Bool :=
  decide (w &&& r.mask = r.code)

/-- The opcode-map row of a command (R89). -/
def Instr.opcodeRow : Instr → OpcodeRow
  | .stepSingle _ _ => ⟨"STEP.SINGLE", 0x11000000, 0xF7000000⟩
  | .stepDouble _ _ => ⟨"STEP.DOUBLE", 0x12000000, 0xF7000000⟩
  | .stepInterleave _ _ => ⟨"STEP.INTERLEAVE", 0x13000000, 0xF7000000⟩
  | .stepMicrostep _ _ => ⟨"STEP.MICROSTEP", 0x14000000, 0xF7000000⟩
  | .stepM0 _ _ => ⟨"STEP.M0", 0x10000000, 0xF7000000⟩
  | .stepM5 _ _ => ⟨"STEP.M5", 0x15000000, 0xF7000000⟩
  | .stepM6 _ _ => ⟨"STEP.M6", 0x16000000, 0xF7000000⟩
  | .stepM7 _ _ => ⟨"STEP.M7", 0x17000000, 0xF7000000⟩
  | .release => ⟨"RELEASE", 0x20000000, 0xFFFFFFFF⟩

/-- The opcode map, one row per mnemonic (R89). -/
def opcodeMap : List OpcodeRow :=
  [Instr.stepSingle .forward 0, .stepDouble .forward 0, .stepInterleave .forward 0, .stepMicrostep .forward 0,
    .stepM0 .forward 0, .stepM5 .forward 0, .stepM6 .forward 0, .stepM7 .forward 0, .release].map Instr.opcodeRow

/-- The four bytes of a word on a byte-wide link, in the order they are sent (R65). -/
def linkBytes (o : ByteOrder) (w : Word) : List Byte :=
  match o with
  | .leastFirst => [w.extractLsb' 0 8, w.extractLsb' 8 8, w.extractLsb' 16 8, w.extractLsb' 24 8]
  | .mostFirst => [w.extractLsb' 24 8, w.extractLsb' 16 8, w.extractLsb' 8 8, w.extractLsb' 0 8]

/-- The word that four bytes of a byte-wide link carry (R65). -/
def linkWord (o : ByteOrder) (b0 b1 b2 b3 : Byte) : Word :=
  match o with
  | .leastFirst => b3 ++ (b2 ++ (b1 ++ b0))
  | .mostFirst => b0 ++ (b1 ++ (b2 ++ b3))

/-- Why bytes on a link give no command. -/
inductive LinkError where
  /-- Fewer than the four bytes of a command word have arrived: commands arrive whole (R66, R91). -/
  | incomplete
  /-- The word is reserved (R88). -/
  | reserved (r : Reserved)
  deriving DecidableEq, Repr

/-- The first command of a byte stream and the bytes after it, for a link of the given byte order: total on any bytes.
At the platform's own order `Config.cmdByteOrder` it is `decodeLink Config.cmdByteOrder` (R65, R91). -/
def decodeLink (o : ByteOrder) : List Byte → Except LinkError (Instr × List Byte)
  | b0 :: b1 :: b2 :: b3 :: rest =>
    match decode (linkWord o b0 b1 b2 b3) with
    | .ok i => .ok (i, rest)
    | .error r => .error (.reserved r)
  | [] => .error .incomplete
  | [_] => .error .incomplete
  | [_, _] => .error .incomplete
  | [_, _, _] => .error .incomplete

/-- What the decoder reads from a command whose low `nbits` bits are `w` and whose other bits are 0, numbered as
spec/opcode_table.json numbers them: a command is one whole 32-bit word, bit 0 its least significant (R11, R80). -/
def decodeTableWord (nbits w : Nat) : Option Instr :=
  (decode (BitVec.ofNat 32 (w % 2 ^ nbits))).toOption

end Sys2Proof
end

