-- ==== Sys2Proof/Machine/Tables.lean ====
section
/-! DEFINITION. The read-only tables and the duty scaling: the step-table ROM, the curve ROM (spec/20_memory.md) and
`SCALE` (spec/42_step_microstep.md R142). -/

namespace Sys2Proof.Machine

/-- One row of a step table: a 4-tuple of levels in column order A1, B1, A2, B2 (R11, R30). -/
structure Row where
  a1 : Bool
  b1 : Bool
  a2 : Bool
  b2 : Bool
  deriving DecidableEq, Repr

/-- The row with every terminal at the inactive level, 0 (R56, R160). -/
def Row.inactive : Row := ⟨false, false, false, false⟩

/-- The two windings (R14). -/
inductive Coil where
  | a
  | b
  deriving DecidableEq, Repr

/-- The step-table ROM: the reference instance of R55, which a model claiming this hardware uses (decision D8).
An unrecognized mode has no table (R10). -/
def stepTable : Mode → List Row
  | .single =>
    [⟨true, false, false, false⟩, ⟨false, true, false, false⟩, ⟨false, false, true, false⟩, ⟨false, false, false, true⟩]
  | .double =>
    [⟨true, true, false, false⟩, ⟨false, true, true, false⟩, ⟨false, false, true, true⟩, ⟨true, false, false, true⟩]
  | .interleave =>
    [⟨true, false, false, false⟩, ⟨true, true, false, false⟩, ⟨false, true, false, false⟩, ⟨false, true, true, false⟩,
      ⟨false, false, true, false⟩, ⟨false, false, true, true⟩, ⟨false, false, false, true⟩, ⟨true, false, false, true⟩]
  | .microstep =>
    [⟨true, true, false, false⟩, ⟨false, true, true, false⟩, ⟨false, false, true, true⟩, ⟨true, false, false, true⟩]
  | .m0 => []
  | .m5 => []
  | .m6 => []
  | .m7 => []

/-- `CURVE_A` rises over window `k` (case (a) of R61); window 1 is fixed by R62, the others are free. -/
def windowRises (k : Nat) : Bool :=
  if k = 1 then true else Config.freeWindowRises k

/-- The free shape of a coil's curve over window `k`. -/
def freeCurve : Coil → Nat → Config.Ramp
  | .a => Config.freeCurveA
  | .b => Config.freeCurveB

/-- The duty a curve holds where R60 fixes it: 0 and 255 at indices 8 and 15. -/
def fixedCurve : Coil → Nat → Option Byte
  | .a, i => if i = 8 then some 0 else if i = 15 then some 255 else none
  | .b, i => if i = 8 then some 255 else if i = 15 then some 0 else none

/-- The curve of a coil rises over window `k`: case (a) of R61 for coil A, case (b) for coil B. -/
def curveRises (c : Coil) (k : Nat) : Bool :=
  match c with
  | .a => windowRises k
  | .b => !windowRises k

/-- The height of a coil's curve at point `j` of window `k`, before R60's fixed entries: the free shape limited to the
8-bit range, or 255 less it where the curve falls. -/
def curveHeight (c : Coil) (k j : Nat) : Nat :=
  if curveRises c k then min 255 ((freeCurve c k).height j) else 255 - min 255 ((freeCurve c k).height j)

/-- The entry of `CURVE_A` or `CURVE_B` at an index: R60's value where it fixes one, else free within R61 and R62
(OPEN, log entry 3). Every pair of tables that meets R60 to R62 is one instance of the free constants. -/
def curve (c : Coil) (i : Nat) : Byte :=
  match fixedCurve c i with
  | some v => v
  | none => BitVec.ofNat 8 (curveHeight c (i / 8) (i % 8))

/-- `SCALE(v, pf)` of R142: OPEN within S1 to S4 (log entry 2). Outside [0, 1] it is what it is at the nearer end,
a case no rule reads, since the held power factor is clamped (R24). -/
def scale (v : Byte) (pf : Rat) : Byte :=
  if 1 ≤ pf then v
  else if pf ≤ 0 then 0
  else BitVec.ofNat 8 (min (Config.freeScale.apply v.toNat pf) v.toNat)

/-- The reference `SCALE` of R142, `floor(v * pf)` computed exactly (decision D6), for a claim that assumes it.
The machine does not read it. -/
def referenceScale (v : Byte) (pf : Rat) : Byte :=
  BitVec.ofNat 8 ((v.toNat : Rat) * pf).floor.toNat

/-- `clamp(q, 0, 1)` (R11, R24). -/
def clampUnit (q : Rat) : Rat :=
  if q < 0 then 0 else if 1 < q then 1 else q

end Sys2Proof.Machine
end

