-- ==== Sys2Proof/Machine/State.lean ====
section
/-! DEFINITION. The state of the block as plain data (spec/10_state.md), the outcomes that stop the model
(spec/60_exceptions.md R171), and the state after reset. -/

namespace Sys2Proof.Machine

/-- A sparse map from pin identifiers, read as numbers, to latch values, in one canonical form (`PinMap.Wf`): pins
strictly rising. A pin that is not listed is UNSET: it has no value (R30, R33). -/
abbrev PinMap (α : Type) := List (Nat × α)

/-- One event of the output trace (R31). -/
inductive Event where
  /-- `ConfigureOutput(p)`: configure pin `p` as an output. -/
  | configureOutput (p : Pin)
  /-- `AssertCoils(a1, b1, a2, b2)`: set the four coil pins at once. -/
  | assertCoils (r : Row)
  /-- `Duty(p, v)`: set the duty of PWM pin `p`. -/
  | duty (p : Pin) (v : Byte)
  /-- `Delay(n)`: pause for `n` microseconds. -/
  | delay (n : Micros)
  deriving DecidableEq, Repr

/-- The registers that exist only in `STEPSEQ-PWM` (R20, R24, R25, decision D21): `PIN_PWMA`, `PIN_PWMB`, the held
power factor `pf` and the ceiling `dutyMax`. -/
structure PwmUnit where
  pinA : Pin
  pinB : Pin
  pf : Rat
  dutyMax : Byte
  deriving DecidableEq, Repr

/-- A command of the host's stream (R27, R221): its word, and whether the host issues it while the command before it is
still executing, against the protocol of R181. -/
structure HostCommand where
  word : Word
  overlaps : Bool
  deriving DecidableEq, Repr

/-- The state of one instance. -/
structure State where
  /-- `PIN_A1`, read-only after reset (R20). -/
  pinA1 : Pin
  /-- `PIN_A2`, read-only after reset (R20). -/
  pinA2 : Pin
  /-- `PIN_B1`, read-only after reset (R20). -/
  pinB1 : Pin
  /-- `PIN_B2`, read-only after reset (R20). -/
  pinB2 : Pin
  /-- `HAS_PWM` is 1 exactly when this is `some _` (R22, `State.hasPwm`); then it holds the PWM registers. -/
  pwm : Option PwmUnit
  /-- `currentStep`, the signed step cursor (R26). -/
  currentStep : Cursor
  /-- `level[p]` of every pin (R30). -/
  level : PinMap Bool
  /-- `duty[p]` of every pin (R30). -/
  duty : List Host.Cell
  /-- `isOutput[p]` of every pin; an unlisted pin is outside the block (R30, R35). -/
  isOutput : PinMap Bool
  /-- The output trace, oldest event first (R31). -/
  trace : List Event
  /-- The host's commands that are not yet issued, the next one first (R27, R221). -/
  stream : List HostCommand
  /-- How many commands have completed: the position in the host's stream that stands for a program counter (R27). -/
  completed : Nat
  deriving DecidableEq, Repr

/-- What stops the model as a fault (R171). The hardware has no trap; a fault says no defined behaviour exists (R11). -/
inductive Fault where
  /-- Code 4. Raised by `issue` when the host issues `w` while the command before it executes; `w` never starts
  (R172, R181). Safe: the source calls the behaviour undefined. -/
  | hostOverlap (w : Word)
  /-- Code 5. Raised by `readRow` and `readCurve` on an index outside the table (R58); no command reaches it. Safe. -/
  | modelInvariantBroken (index : Nat)
  deriving DecidableEq, Repr

/-- What the model gives no meaning (R171). -/
inductive Refusal where
  /-- An instruction without a meaning yet; raised by no arm of `exec`. Safe. -/
  | notModelled (mnemonic : String)
  /-- Code 1. Raised by `issue` on a reserved word (R88). Safe: no encoding of the source has such a word. -/
  | illegalCommand (w : Word)
  /-- Code 2. Raised by `construct` on a configuration in which two roles share pin `p` (R21). Safe. -/
  | duplicatePin (p : Pin)
  /-- Code 3. Raised by `compose` when two instances share pin `p` (R184). Safe. -/
  | sharedPin (p : Pin)
  deriving DecidableEq, Repr

/-- The machine right after reset (R35, R201), constructed from `Config.resetInputs` (log entry 1): registers loaded,
cursor 0, every level and duty UNSET, the six pins outputs, and the trace holding reset's own events.
The host has issued nothing yet (R203). -/
def State.reset : State where
  pinA1 := 2
  pinA2 := 3
  pinB1 := 4
  pinB2 := 5
  pwm := some ⟨9, 10, 1, scale 255 1⟩
  currentStep := 0
  level := []
  duty := []
  isOutput := [(2, true), (3, true), (4, true), (5, true), (9, true), (10, true)]
  trace := [.configureOutput 2, .configureOutput 3, .configureOutput 4, .configureOutput 5, .configureOutput 9,
    .configureOutput 10]
  stream := []
  completed := 0

end Sys2Proof.Machine
end

