-- ==== Sys2Proof/Machine/Ops.lean ====
section
/-! DEFINITION. The named operations: the pin bank and its events, the table reads, the phases every STEP command runs,
and the stop codes. The block takes no exception and returns from none (spec/60_exceptions.md R170, R173), so there is
no exception entry here. -/

namespace Sys2Proof.Machine

/-- The canonical form of a pin map: pins strictly rising, each an 8-bit identifier. -/
abbrev PinMap.Wf {α : Type} (m : PinMap α) : Prop :=
  m.Pairwise (fun x y => x.1 < y.1) ∧ ∀ x ∈ m, x.1 < 256

/-- The value latched for a pin; `none` is UNSET, which is no value (R33, decision D32). -/
def readPin {α : Type} (m : PinMap α) (p : Pin) : Option α :=
  match m with
  | [] => none
  | (q, u) :: rest => if q = p.toNat then some u else readPin rest p

/-- Latch a value for a pin, keeping the canonical form (R32). -/
def writePin {α : Type} (m : PinMap α) (p : Pin) (v : α) : PinMap α :=
  match m with
  | [] => [(p.toNat, v)]
  | (q, u) :: rest =>
    if p.toNat < q then (p.toNat, v) :: (q, u) :: rest
    else if p.toNat = q then (p.toNat, v) :: rest
    else (q, u) :: writePin rest p v

/-- The coil levels after a row is asserted through the pin multiplex: column 0 drives `PIN_A1`, column 1 `PIN_B1`,
column 2 `PIN_A2`, column 3 `PIN_B2` (R30, R32). -/
def driveCoils (s : State) (r : Row) : PinMap Bool :=
  writePin (writePin (writePin (writePin s.level s.pinA1 r.a1) s.pinB1 r.b1) s.pinA2 r.a2) s.pinB2 r.b2

/-- The latch update an event makes (R32). -/
def latch (s : State) : Event → State
  | .configureOutput p => { s with isOutput := writePin s.isOutput p true }
  | .assertCoils r => { s with level := driveCoils s r }
  | .duty p v => { s with duty := writePin s.duty p v }
  | .delay _ => s

/-- `emit E`: append the event to the trace and make its latch update (R11). -/
def emit (s : State) (e : Event) : State :=
  { latch s e with trace := s.trace ++ [e] }

/-- Emit events in order (R69). -/
def emitAll (s : State) : List Event → State
  | [] => s
  | e :: es => emitAll (emit s e) es

/-- `MemRead(STEP_TABLE[mode], index, 4)`; an index outside the table raises `ModelInvariantBroken` (R58). -/
def readRow (m : Mode) (index : Nat) : Except Fault Row :=
  match (stepTable m)[index]? with
  | some r => .ok r
  | none => .error (.modelInvariantBroken index)

/-- `MemRead(CURVE_A, index, 8)` or `MemRead(CURVE_B, index, 8)`; an index outside the 32 entries raises
`ModelInvariantBroken` (R64, R171). -/
def readCurve (c : Coil) (index : Nat) : Except Fault Byte :=
  if index < 32 then .ok (curve c index) else .error (.modelInvariantBroken index)

/-- `norm(c, L)`: the normalised cursor for a cycle length (R29). -/
def normCursor (c : Int) (len : Nat) : Nat :=
  if (len : Int) ≤ c then 0 else if c < 0 then len - 1 else c.toNat

/-- The cycle length `L(mode)`: 8 for INTERLEAVE and 4 for every other mode value (R100). -/
def cycleLength : Mode → Nat
  | .interleave => 8
  | .single => 4
  | .double => 4
  | .microstep => 4
  | .m0 => 4
  | .m5 => 4
  | .m6 => 4
  | .m7 => 4

/-- The wrap, the first phase of every STEP command, on the signed value of the cursor (R101). -/
def wrapCursor (m : Mode) (s : State) : State :=
  { s with currentStep := BitVec.ofNat 16 (normCursor s.currentStep.toInt (cycleLength m)) }

/-- The cursor the advance leaves from the wrapped index: `s + 1` for FORWARD, `s - 1` for BACKWARD (R104). -/
def advanced (d : Dir) (index : Nat) : Cursor :=
  match d with
  | .forward => BitVec.ofInt 16 (index + 1)
  | .backward => BitVec.ofInt 16 (index - 1)

/-- The advance, the last phase of every STEP command (R104). No wrap follows it (R105). -/
def advance (d : Dir) (index : Nat) (s : State) : State :=
  { s with currentStep := advanced d index }

/-- A mode body: the events it appends, from the wrapped index and the state; it never writes the cursor (R103). -/
abbrev Body := Nat → State → Except Fault (List Event)

/-- A STEP command: the wrap, then the mode's body, then the advance (R101, R103, R104, R107). -/
def stepCommand (m : Mode) (d : Dir) (body : Body) (s : State) : Host.Outcome State Fault Refusal :=
  let w := wrapCursor m s
  let index := w.currentStep.toNat
  match body index w with
  | .error f => .fault f
  | .ok es => .next (advance d index (emitAll w es))

/-- The code of a fault (R171). -/
def faultCode : Fault → Nat
  | .hostOverlap _ => 4
  | .modelInvariantBroken _ => 5

/-- The code of a refusal (R171); the model's own "not modelled" has none of the spec's. -/
def refusalCode : Refusal → Option Nat
  | .illegalCommand _ => some 1
  | .duplicatePin _ => some 2
  | .sharedPin _ => some 3
  | _ => none

end Sys2Proof.Machine
end

