-- ==== Sys2Proof/Machine/Operands.lean ====
section
/-! DEFINITION. What the operands stand for inside a command: the hold of a discrete command, the hold per ramp point,
and the curve indices a direction walks. -/

namespace Sys2Proof.Machine

/-- The delay of a discrete command: one `Delay(hold)` when `hold > 0`, else none (spec/41_step_discrete.md R120). -/
def holdDelay (hold : Micros) : List Event :=
  if 0 < hold.toNat then [.delay hold] else []

/-- `hold div 8`, the pause after each ramp point (spec/42_step_microstep.md R141, decision D14). -/
def rampHold (hold : Micros) : Micros :=
  BitVec.ofNat 24 (hold.toNat / 8)

/-- The curve index of ramp point `k` of full step `index`: ascending for FORWARD, descending for BACKWARD (R141). -/
def rampIndex (d : Dir) (index k : Nat) : Nat :=
  match d with
  | .forward => 8 * index + k
  | .backward => 8 * index + 7 - k

/-- The curve indices of one full step in the order the direction walks them (R141, R144). -/
def rampWalk (d : Dir) (index : Nat) : List Nat :=
  (List.range 8).map (rampIndex d index)

end Sys2Proof.Machine
end

