-- ==== Sys2Proof/Machine/Flags.lean ====
section
/-! DEFINITION. The flags. The block has one, the configuration flag `HAS_PWM`; it has no condition codes and no status
flags, so no command computes one (spec/10_state.md R22). -/

namespace Sys2Proof.Machine

/-- `HAS_PWM`: 1 for the PWM-capable construction, 0 without PWM (R22). -/
def State.hasPwm (s : State) : Bool :=
  s.pwm.isSome

/-- `if HAS_PWM: emit Duty(PIN_PWMA, dutyMax); emit Duty(PIN_PWMB, dutyMax)` (spec/41_step_discrete.md R120). -/
def ceilingDuties (s : State) : List Event :=
  match s.pwm with
  | none => []
  | some u => [.duty u.pinA u.dutyMax, .duty u.pinB u.dutyMax]

end Sys2Proof.Machine
end

