-- ==== Sys2Proof/Machine/Discrete.lean ====
section
/-! DEFINITION. STEP in the discrete modes SINGLE, DOUBLE and INTERLEAVE (spec/41_step_discrete.md). -/

namespace Sys2Proof.Machine

/-- The discrete body: the two ceiling duties where there is PWM, the row, then the hold (R120). -/
def discreteBody (m : Mode) (hold : Micros) : Body := fun index s =>
  match readRow m index with
  | .error f => .error f
  | .ok r => .ok (ceilingDuties s ++ .assertCoils r :: holdDelay hold)

/-- `STEP.SINGLE` (R121). -/
def execStepSingle (d : Dir) (hold : Micros) (s : State) : Host.Outcome State Fault Refusal :=
  stepCommand .single d (discreteBody .single hold) s

/-- `STEP.DOUBLE` (R122). -/
def execStepDouble (d : Dir) (hold : Micros) (s : State) : Host.Outcome State Fault Refusal :=
  stepCommand .double d (discreteBody .double hold) s

/-- `STEP.INTERLEAVE` (R123). -/
def execStepInterleave (d : Dir) (hold : Micros) (s : State) : Host.Outcome State Fault Refusal :=
  stepCommand .interleave d (discreteBody .interleave hold) s

end Sys2Proof.Machine
end

