-- ==== Sys2Proof/Machine/Microstep.lean ====
section
/-! DEFINITION. STEP in MICROSTEP mode and the ramp-curve interpolator (spec/42_step_microstep.md). -/

namespace Sys2Proof.Machine

/-- The events of the ramp points at the given curve indices: at each, the scaled duty of coil A, the scaled duty of
coil B, and the pause (R141). -/
def rampEvents (u : PwmUnit) (hold : Micros) : List Nat → Except Fault (List Event)
  | [] => .ok []
  | i :: rest =>
    match readCurve .a i, readCurve .b i, rampEvents u hold rest with
    | .ok va, .ok vb, .ok es =>
      .ok (.duty u.pinA (scale va u.pf) :: .duty u.pinB (scale vb u.pf) :: .delay (rampHold hold) :: es)
    | .error f, _, _ => .error f
    | .ok _, .error f, _ => .error f
    | .ok _, .ok _, .error f => .error f

/-- The MICROSTEP body: nothing without PWM (R140); with it, the row and then the 8 ramp points (R141). -/
def microstepBody (d : Dir) (hold : Micros) : Body := fun index s =>
  match s.pwm with
  | none => .ok []
  | some u =>
    match readRow .microstep index with
    | .error f => .error f
    | .ok r =>
      match rampEvents u hold (rampWalk d index) with
      | .error f => .error f
      | .ok es => .ok (.assertCoils r :: es)

/-- `STEP.MICROSTEP` (R143). -/
def execStepMicrostep (d : Dir) (hold : Micros) (s : State) : Host.Outcome State Fault Refusal :=
  stepCommand .microstep d (microstepBody d hold) s

end Sys2Proof.Machine
end

