-- ==== Sys2Proof/Machine/Release.lean ====
section
/-! DEFINITION. RELEASE (spec/43_release.md). -/

namespace Sys2Proof.Machine

/-- `RELEASE`: all four coil pins to the inactive level, and nothing else (R160 to R162). -/
def execRelease (s : State) : Host.Outcome State Fault Refusal :=
  .next (emit s (.assertCoils Row.inactive))

end Sys2Proof.Machine
end

