-- ==== Sys2Proof/Machine/Unrecognized.lean ====
section
/-! DEFINITION. STEP with an unrecognized mode: a pass-through no-op that still wraps and advances the cursor
(spec/40_step_common.md R106). -/

namespace Sys2Proof.Machine

/-- The empty body: no event and no delay, whatever the hold is (R106). -/
def emptyBody (_hold : Micros) : Body := fun _ _ => .ok []

/-- `STEP.M0` (R106). -/
def execStepM0 (d : Dir) (hold : Micros) (s : State) : Host.Outcome State Fault Refusal :=
  stepCommand .m0 d (emptyBody hold) s

/-- `STEP.M5` (R106). -/
def execStepM5 (d : Dir) (hold : Micros) (s : State) : Host.Outcome State Fault Refusal :=
  stepCommand .m5 d (emptyBody hold) s

/-- `STEP.M6` (R106). -/
def execStepM6 (d : Dir) (hold : Micros) (s : State) : Host.Outcome State Fault Refusal :=
  stepCommand .m6 d (emptyBody hold) s

/-- `STEP.M7` (R106). -/
def execStepM7 (d : Dir) (hold : Micros) (s : State) : Host.Outcome State Fault Refusal :=
  stepCommand .m7 d (emptyBody hold) s

end Sys2Proof.Machine
end

