-- ==== Sys2Proof/Machine/Dispatch.lean ====
section
/-! DEFINITION. The dispatch from a command to its meaning (spec/30_encoding.md R89). -/

namespace Sys2Proof.Machine

/-- The effect of one command on the block, as one indivisible transition (spec/10_state.md R34). -/
def exec (i : Instr) (s : State) : Host.Outcome State Fault Refusal :=
  match i with
  | .stepSingle d hold => Sys2Proof.Machine.execStepSingle d hold s
  | .stepDouble d hold => Sys2Proof.Machine.execStepDouble d hold s
  | .stepInterleave d hold => Sys2Proof.Machine.execStepInterleave d hold s
  | .stepMicrostep d hold => Sys2Proof.Machine.execStepMicrostep d hold s
  | .stepM0 d hold => Sys2Proof.Machine.execStepM0 d hold s
  | .stepM5 d hold => Sys2Proof.Machine.execStepM5 d hold s
  | .stepM6 d hold => Sys2Proof.Machine.execStepM6 d hold s
  | .stepM7 d hold => Sys2Proof.Machine.execStepM7 d hold s
  | .release => Sys2Proof.Machine.execRelease s

end Sys2Proof.Machine
end

