-- ==== Sys2Proof/Machine/Protocol.lean ====
section
/-! DEFINITION. The host protocol: how the next command of the host's stream is issued, and what its completion records
(spec/60_exceptions.md R172, R181; spec/10_state.md R27). -/

namespace Sys2Proof.Machine

/-- What the host's next move comes to. -/
inductive Issue where
  /-- No command is left: the block waits for the host (R203). -/
  | waiting
  /-- A command to execute. -/
  | run (i : Instr)
  | faulted (f : Fault)
  | refused (r : Refusal)
  deriving DecidableEq, Repr

/-- Some command of this run has been executed, so that a command can overlap one. -/
def State.hasRun (s : State) : Bool :=
  decide (s.completed ≠ 0)

/-- Issue the next command: decoding comes first (code 1), then the overlap with the command before it (code 4), then
execution (R172, decision D35). -/
def issue (s : State) : Issue :=
  match s.stream with
  | [] => .waiting
  | c :: _ =>
    match decode c.word with
    | .error _ => .refused (.illegalCommand c.word)
    | .ok i => if c.overlaps && s.hasRun then .faulted (.hostOverlap c.word) else .run i

/-- The completion of a command: it leaves the stream, and the host's command number advances by one (R27). -/
def retire (s : State) : State :=
  { s with stream := s.stream.tail, completed := s.completed + 1 }

/-- The state with a word as the host's next command, issued in its turn. -/
def placeWord (s : State) (w : Word) : State :=
  { s with stream := ⟨w, false⟩ :: s.stream.tail }

end Sys2Proof.Machine
end

