-- ==== Sys2Proof/Machine/Step.lean ====
section
/-! DEFINITION. One step of the machine: the host's next command, issued, executed and completed. -/

namespace Sys2Proof.Machine

/-- Issue the next command, execute it, and record its completion.
With no command left the block waits and nothing changes (spec/70_reset_and_hazards.md R203, log entry 6).
A fault or a refusal leaves no next state: the run ends there (spec/60_exceptions.md R173). -/
def step (s : State) : Host.Outcome State Fault Refusal :=
  match issue s with
  | .waiting => .next s
  | .faulted f => .fault f
  | .refused r => .refused r
  | .run i =>
    match exec i s with
    | .next t => .next (retire t)
    | .fault f => .fault f
    | .refused r => .refused r

/-- The state in which the host's next command is the word whose low `nbits` bits are `w` and whose other bits are 0. -/
def State.withFetchWord (s : State) (nbits w : Nat) : State :=
  placeWord s (BitVec.ofNat 32 (w % 2 ^ nbits))

end Sys2Proof.Machine
end

