-- ==== Sys2Proof/Machine/Assembler.lean ====
section
/-! DEFINITION. The assembler and disassembler of spec/30_encoding.md R92 to R94. Syntax carries no semantics
(decision D27): no definition of the machine reads this file. -/

namespace Sys2Proof.Machine

/-- The mode an assembly mode operand names (R92). -/
def asmModeMeans : AsmMode → Mode
  | .single => .single
  | .double => .double
  | .interleave => .interleave
  | .microstep => .microstep
  | .raw n => Mode.ofCode (BitVec.ofNat 3 n)

/-- The command an assembly command stands for; an ill-formed one is an assembly error.
The two-operand form means a zero hold (R92, R93). -/
def asmInstr (a : Asm) : Option Instr :=
  if a.wellFormed then
    match a with
    | .step d m hold => some (Instr.ofStep (asmModeMeans m) d (BitVec.ofNat 24 (hold.getD 0)))
    | .release => some .release
  else none

/-- Assemble one command (R92). -/
def assemble (a : Asm) : Option Word :=
  (asmInstr a).map encode

/-- The assembly spelling of a mode (R92). -/
def modeAsm : Mode → AsmMode
  | .single => .single
  | .double => .double
  | .interleave => .interleave
  | .microstep => .microstep
  | .m0 => .raw 0
  | .m5 => .raw 5
  | .m6 => .raw 6
  | .m7 => .raw 7

/-- Disassemble a command, always in the three-operand form (R93). -/
def disassemble : Instr → Asm
  | .stepSingle d h => .step d (modeAsm .single) (some h.toNat)
  | .stepDouble d h => .step d (modeAsm .double) (some h.toNat)
  | .stepInterleave d h => .step d (modeAsm .interleave) (some h.toNat)
  | .stepMicrostep d h => .step d (modeAsm .microstep) (some h.toNat)
  | .stepM0 d h => .step d (modeAsm .m0) (some h.toNat)
  | .stepM5 d h => .step d (modeAsm .m5) (some h.toNat)
  | .stepM6 d h => .step d (modeAsm .m6) (some h.toNat)
  | .stepM7 d h => .step d (modeAsm .m7) (some h.toNat)
  | .release => .release

/-- A lexical token of a line of assembly: a comma or a run of other characters that are not spaces (log entry 10). -/
inductive AsmToken where
  | comma
  | word (cs : List Char)
  deriving DecidableEq, Repr

/-- The pending run of characters, kept reversed, as a token if it is not empty. -/
def flushToken (run : List Char) (ts : List AsmToken) : List AsmToken :=
  if run.isEmpty then ts else .word run.reverse :: ts

/-- Split a line into tokens; `run` is the reversed run of characters being read. -/
def tokens (run : List Char) : List Char → List AsmToken
  | [] => flushToken run []
  | c :: rest =>
    if c = ',' then flushToken run (.comma :: tokens [] rest)
    else if c = ' ' then flushToken run (tokens [] rest)
    else tokens (c :: run) rest

/-- The value of a digit in a base up to 16. -/
def digitValue (base : Nat) (c : Char) : Option Nat :=
  let n := c.toNat
  let v :=
    if 48 ≤ n ∧ n ≤ 57 then some (n - 48)
    else if 97 ≤ n ∧ n ≤ 102 then some (n - 87)
    else if 65 ≤ n ∧ n ≤ 70 then some (n - 55)
    else none
  v.bind fun d => if d < base then some d else none

/-- Read digits after the value `acc`. -/
def digitsValue (base acc : Nat) : List Char → Option Nat
  | [] => some acc
  | c :: rest => (digitValue base c).bind fun d => digitsValue base (acc * base + d) rest

/-- An unsigned decimal or `0x` hexadecimal number of any size (R92). -/
def numberValue : List Char → Option Nat
  | [] => none
  | '0' :: 'x' :: c :: rest => digitsValue 16 0 (c :: rest)
  | c :: rest => digitsValue 10 0 (c :: rest)

/-- `FORWARD` or `BACKWARD` (R92). -/
def parseDir (cs : List Char) : Option Dir :=
  if cs = "FORWARD".toList then some .forward
  else if cs = "BACKWARD".toList then some .backward
  else none

/-- A mode name, or `#n` (R92). -/
def parseMode (cs : List Char) : Option AsmMode :=
  if cs = "SINGLE".toList then some .single
  else if cs = "DOUBLE".toList then some .double
  else if cs = "INTERLEAVE".toList then some .interleave
  else if cs = "MICROSTEP".toList then some .microstep
  else
    match cs with
    | '#' :: n => (digitsValue 10 0 n).bind fun v => if n.isEmpty then none else some (.raw v)
    | _ => none

/-- Parse one line of assembly into an assembly command (R92, R93). -/
def parseTokens : List AsmToken → Option Asm
  | [.word op] => if op = "RELEASE".toList then some .release else none
  | [.word op, .word d, .comma, .word m] =>
    if op = "STEP".toList then
      (parseDir d).bind fun d => (parseMode m).map fun m => .step d m none
    else none
  | [.word op, .word d, .comma, .word m, .comma, .word h] =>
    if op = "STEP".toList then
      (parseDir d).bind fun d => (parseMode m).bind fun m => (numberValue h).map fun h => .step d m (some h)
    else none
  | _ => none

/-- Parse a line of assembly (R92). -/
def parseLine (line : List Char) : Option Asm :=
  parseTokens (tokens [] line)

/-- Assemble a line of assembly into a command word; `none` is an assembly error (R92). -/
def assembleLine (line : List Char) : Option Word :=
  (parseLine line).bind assemble

/-- The text of a direction (R92). -/
def printDir : Dir → List Char
  | .forward => "FORWARD".toList
  | .backward => "BACKWARD".toList

/-- The text of a mode operand (R92). -/
def printMode : AsmMode → List Char
  | .single => "SINGLE".toList
  | .double => "DOUBLE".toList
  | .interleave => "INTERLEAVE".toList
  | .microstep => "MICROSTEP".toList
  | .raw n => '#' :: Nat.toDigits 10 n

/-- The text of an assembly command, with a decimal hold (R92, R93). -/
def printLine : Asm → List Char
  | .step d m none => "STEP ".toList ++ printDir d ++ ", ".toList ++ printMode m
  | .step d m (some h) =>
    "STEP ".toList ++ printDir d ++ ", ".toList ++ printMode m ++ ", ".toList ++ Nat.toDigits 10 h
  | .release => "RELEASE".toList

end Sys2Proof.Machine
end

