-- ==== Sys2Proof/Machine/Reset.lean ====
section
/-! DEFINITION. Reset: the construction of an instance from any configuration inputs (spec/70_reset_and_hazards.md
R200, R201), and the pin check on several instances (spec/60_exceptions.md R184). -/

namespace Sys2Proof.Machine

/-- The first pin of a list that occurs again later in it. -/
def firstDuplicate : List Pin → Option Pin
  | [] => none
  | p :: rest => if p ∈ rest then some p else firstDuplicate rest

/-- The PWM registers reset loads: the pins, `pf <- clamp(POWER_FACTOR_IN, 0, 1)` and `dutyMax <- SCALE(255, pf)`
(R24, R25). `POWER_FACTOR_IN` itself is not stored (R23). -/
def loadPwm (u : PwmInputs) : PwmUnit :=
  ⟨u.pinA, u.pinB, clampUnit u.powerFactor, scale 255 (clampUnit u.powerFactor)⟩

/-- The registers loaded and every latch UNSET, before reset's events (R33, R201). -/
def latchInputs (c : Inputs) : State where
  pinA1 := c.pinA1
  pinA2 := c.pinA2
  pinB1 := c.pinB1
  pinB2 := c.pinB2
  pwm := c.pwm.map loadPwm
  currentStep := 0
  level := []
  duty := []
  isOutput := []
  trace := []
  stream := []
  completed := 0

/-- The state an accepted configuration leaves: one `ConfigureOutput` event per pin, in order (R201). -/
def constructed (c : Inputs) : State :=
  emitAll (latchInputs c) (c.pins.map .configureOutput)

/-- RESET (R201): two equal pins are refused, recording the pin; any other configuration is accepted. -/
def construct (c : Inputs) : Host.Outcome State Fault Refusal :=
  match firstDuplicate c.pins with
  | some p => .refused (.duplicatePin p)
  | none => .next (constructed c)

/-- The first pin of an instance that a later instance also drives. -/
def firstShared : List Inputs → Option Pin
  | [] => none
  | c :: rest =>
    match c.pins.find? (fun p => rest.any (fun c' => decide (p ∈ c'.pins))) with
    | some p => some p
    | none => firstShared rest

/-- Construct several instances, one per motor: a duplicate within one is refused first, then a pin that two instances
share (R172, R184; log entry 9 for the order of the two). Instances share no state. -/
def compose (cs : List Inputs) : Host.Outcome (List State) Fault Refusal :=
  match cs.findSome? (fun c => firstDuplicate c.pins) with
  | some p => .refused (.duplicatePin p)
  | none =>
    match firstShared cs with
    | some p => .refused (.sharedPin p)
    | none => .next (cs.map constructed)

end Sys2Proof.Machine
end

