-- ==== Sys2Proof/Machine/Platform.lean ====
section
/-! DEFINITION. Several instances beside one another, one per motor (spec/60_exceptions.md R184). -/

namespace Sys2Proof.Machine

/-- A step of instance `k` of a platform: that instance's own step, every other instance as it was.
A number that no instance has moves nothing. -/
def platformStep (k : Nat) (ss : List State) : Host.Outcome (List State) Fault Refusal :=
  match ss[k]? with
  | none => .next ss
  | some s =>
    match step s with
    | .next t => .next (ss.set k t)
    | .fault f => .fault f
    | .refused r => .refused r

end Sys2Proof.Machine
end

