-- ==== Sys2Proof/Safety.lean ====
section
/-! DEFINITION. The terms claims are stated in: what a trace shows, sequences of commands, the invariant of a run, the
verdict of a run (spec/60_exceptions.md R173) and its observation (spec/70_reset_and_hazards.md R221). -/

namespace Sys2Proof.Machine

/-- `Outcome` completes with a next state that satisfies a property. -/
def Completes {α : Type} (o : Host.Outcome α Fault Refusal) (post : α → Prop) : Prop :=
  ∃ t, o = .next t ∧ post t

/-- The wrapped index a STEP in mode `m` runs at (R29, R101). -/
def wrappedIndex (m : Mode) (s : State) : Nat :=
  normCursor s.currentStep.toInt (cycleLength m)

/-- `+1` for FORWARD, `-1` for BACKWARD (R104). -/
def dirSign : Dir → Int
  | .forward => 1
  | .backward => -1

/-- A discrete mode: SINGLE, DOUBLE or INTERLEAVE (R14). -/
def isDiscrete : Mode → Bool
  | .single => true
  | .double => true
  | .interleave => true
  | .microstep => false
  | .m0 => false
  | .m5 => false
  | .m6 => false
  | .m7 => false

/-- An unrecognized mode (R85). -/
def isUnrecognized : Mode → Bool
  | .m0 => true
  | .m5 => true
  | .m6 => true
  | .m7 => true
  | .single => false
  | .double => false
  | .interleave => false
  | .microstep => false

/-- A STEP in this mode asserts a table row: a discrete mode, or MICROSTEP with PWM (R103, R140). -/
def assertsRow (m : Mode) (s : State) : Bool :=
  isDiscrete m || (decide (m = .microstep) && s.hasPwm)

/-- The rows a list of events asserts, in order. -/
def rowsIn (es : List Event) : List Row :=
  es.filterMap fun e => match e with
    | .assertCoils r => some r
    | .configureOutput _ => none
    | .duty _ _ => none
    | .delay _ => none

/-- The delays a list of events requests, in microseconds, in order. -/
def delaysIn (es : List Event) : List Nat :=
  es.filterMap fun e => match e with
    | .delay n => some n.toNat
    | .configureOutput _ => none
    | .duty _ _ => none
    | .assertCoils _ => none

/-- The duties a list of events gives one pin, in order. -/
def dutiesOn (p : Pin) (es : List Event) : List Byte :=
  es.filterMap fun e => match e with
    | .duty q v => if q = p then some v else none
    | .configureOutput _ => none
    | .assertCoils _ => none
    | .delay _ => none

/-- The four bits of a row, A1 B1 A2 B2 from left to right (R55). -/
def rowBits (r : Row) : Nat :=
  8 * r.a1.toNat + 4 * r.b1.toNat + 2 * r.a2.toNat + r.b2.toNat

/-- A row energizes exactly one terminal (R51). -/
def oneTerminal (r : Row) : Bool :=
  decide (rowBits r ∈ [0b1000, 0b0100, 0b0010, 0b0001])

/-- A row energizes two adjacent terminals: (A1,B1), (B1,A2), (A2,B2) or (B2,A1) (R52). -/
def adjacentPair (r : Row) : Bool :=
  decide (rowBits r ∈ [0b1100, 0b0110, 0b0011, 0b1001])

/-- The level a row gives each coil pin of a state is what the pins hold (R30). -/
def coilsHold (s : State) (r : Row) : Prop :=
  readPin s.level s.pinA1 = some r.a1 ∧ readPin s.level s.pinB1 = some r.b1 ∧
    readPin s.level s.pinA2 = some r.a2 ∧ readPin s.level s.pinB2 = some r.b2

/-- The duties of the two PWM pins. -/
def dutiesHold (s : State) (u : PwmUnit) (a b : Byte) : Prop :=
  readPin s.duty u.pinA = some a ∧ readPin s.duty u.pinB = some b

/-- The four coil pins of a state. -/
def State.coilPins (s : State) : List Pin :=
  [s.pinA1, s.pinA2, s.pinB1, s.pinB2]

/-- The PWM pins of a state; none without PWM (R20). -/
def State.pwmPins (s : State) : List Pin :=
  match s.pwm with
  | none => []
  | some u => [u.pinA, u.pinB]

/-- Every pin of a state, in the order of R201. -/
def State.pins (s : State) : List Pin :=
  s.coilPins ++ s.pwmPins

/-- Two states have the same configuration registers (R20, R22, R24, R25). -/
def SameConfig (s t : State) : Prop :=
  t.pinA1 = s.pinA1 ∧ t.pinA2 = s.pinA2 ∧ t.pinB1 = s.pinB1 ∧ t.pinB2 = s.pinB2 ∧ t.pwm = s.pwm

/-- Execute commands one after another, each after the one before has completed (R181). -/
def execAll : List Instr → State → Host.Outcome State Fault Refusal
  | [], s => .next s
  | i :: is, s =>
    match exec i s with
    | .next t => execAll is t
    | .fault f => .fault f
    | .refused r => .refused r

/-- Between commands the cursor lies in [-1, 8] (R28). -/
def CursorInRange (s : State) : Prop :=
  -1 ≤ s.currentStep.toInt ∧ s.currentStep.toInt ≤ 8

/-- Every pin map is in canonical form. -/
def BanksCanonical (s : State) : Prop :=
  PinMap.Wf s.level ∧ PinMap.Wf s.duty ∧ PinMap.Wf s.isOutput

/-- The latches are what replaying the whole trace from UNSET leaves (R32, R33). -/
def LatchesFollowTrace (s : State) : Prop :=
  emitAll { s with level := [], duty := [], isOutput := [], trace := [] } s.trace = s

/-- The held power factor lies in [0, 1], and `dutyMax` is `SCALE(255, pf)` (R24, R25). -/
def PwmHeld (s : State) : Prop :=
  ∀ u, s.pwm = some u → 0 ≤ u.pf ∧ u.pf ≤ 1 ∧ u.dutyMax = scale 255 u.pf

/-- Every pin of the block is configured as an output (R35). -/
def PinsAreOutputs (s : State) : Prop :=
  ∀ p ∈ s.pins, readPin s.isOutput p = some true

/-- The block has written no pin outside its configured roles (R30). -/
def OnlyOwnPins (s : State) : Prop :=
  (∀ p, p ∉ s.coilPins → readPin s.level p = none) ∧ (∀ p, p ∉ s.pwmPins → readPin s.duty p = none) ∧
    ∀ p, p ∉ s.pins → readPin s.isOutput p = none

/-- No coil has both its terminals at the active level (R57). -/
def CoilsNotShorted (s : State) : Prop :=
  ¬(readPin s.level s.pinA1 = some true ∧ readPin s.level s.pinA2 = some true) ∧
    ¬(readPin s.level s.pinB1 = some true ∧ readPin s.level s.pinB2 = some true)

/-- The invariant of every run: what reset establishes and every step keeps. -/
structure Inv (s : State) : Prop where
  pinsDistinct : s.pins.Nodup
  cursor : CursorInRange s
  banks : BanksCanonical s
  replay : LatchesFollowTrace s
  pwm : PwmHeld s
  outputs : PinsAreOutputs s
  ownPins : OnlyOwnPins s
  coils : CoilsNotShorted s

/-- What is recorded when a run stops (R173). -/
inductive Stop where
  | fault (f : Fault)
  | refusal (r : Refusal)
  deriving DecidableEq, Repr

/-- A state with the record of a refusal or a fault, if one has occurred (R173). -/
structure Verdict where
  state : State
  stop : Option Stop
  deriving DecidableEq, Repr

/-- A step of a run: a stop keeps the state as it was and flags it, and a flag is never cleared (R173). -/
def Verdict.step (v : Verdict) : Verdict :=
  match v.stop with
  | some _ => v
  | none =>
    match Machine.step v.state with
    | .next t => ⟨t, none⟩
    | .fault f => ⟨v.state, some (.fault f)⟩
    | .refused r => ⟨v.state, some (.refusal r)⟩

/-- `n` steps of a run. -/
def Verdict.run : Nat → Verdict → Verdict
  | 0, v => v
  | n + 1, v => Verdict.run n v.step

/-- A run has ended: the last command of the stream has completed and nothing has stopped it (R221). -/
def Verdict.ended (v : Verdict) : Bool :=
  v.state.stream.isEmpty && v.stop.isNone

/-- The observation of a run: the output trace, the final latches and the final cursor (R221). -/
structure Observation where
  trace : List Event
  level : PinMap Bool
  duty : List Host.Cell
  isOutput : PinMap Bool
  currentStep : Cursor
  deriving DecidableEq, Repr

/-- What a state shows at the end of a run (R221). -/
def observe (s : State) : Observation :=
  ⟨s.trace, s.level, s.duty, s.isOutput, s.currentStep⟩

/-- A host command that decodes and is issued in its turn. -/
def HostCommand.proper (c : HostCommand) : Bool :=
  !c.overlaps && (decode c.word).toOption.isSome

end Sys2Proof.Machine
end

