-- ==== Sys2Proof/Certificates/Slice0/Obligations.lean ====
section
/-! DEFINITION. The statements for the provers. Each docstring names the rules of spec/ it formalises. `Instr.ofStep m d h`
is `STEP.SINGLE`, `STEP.DOUBLE`, `STEP.INTERLEAVE`, `STEP.MICROSTEP`, `STEP.M0`, `STEP.M5`, `STEP.M6` or `STEP.M7`, by `m`.
`Completes o post` says that `o` is a next state, and that `post` holds of it. -/

open Sys2Proof Sys2Proof.Machine

/-- Decoding an encoded command gives it back, with every operand at every value (R82, R87, R90). -/
def Obligations.DecodeOfEncode : Prop :=
  ∀ i : Instr, decode (encode i) = .ok i

/-- A word that decodes is the word of the command it decodes to: no two words stand for one command (R82, R87, R90). -/
def Obligations.EncodeOfDecode : Prop :=
  ∀ (w : Word) (i : Instr), decode w = .ok i → encode i = w

/-- The STEP fields: `OP` 0001 in bits 31:28, `DIR` in bit 27 (0 FORWARD, 1 BACKWARD), `MODE` in bits 26:24 with the
numbers of R84 and R85, `HOLD` in bits 23:0, an unscaled count of microseconds (R82 to R86). -/
def Obligations.StepFieldsReadRight : Prop :=
  ∀ y ∈ [(0, Dir.forward), (1, Dir.backward)],
    ∀ x ∈ [(0, Mode.m0), (1, Mode.single), (2, Mode.double), (3, Mode.interleave), (4, Mode.microstep), (5, Mode.m5),
        (6, Mode.m6), (7, Mode.m7)],
      ∀ n : Nat, n ≤ 16777215 →
        ∃ h : Micros, h.toNat = n ∧
          decode (BitVec.ofNat 32 (1 * 2 ^ 28 + y.1 * 2 ^ 27 + x.1 * 2 ^ 24 + n)) = .ok (Instr.ofStep x.2 y.2 h)

/-- The reserved words are exactly those of R88: the decoder refuses them, and a run that meets one in the host's stream
records `IllegalCommand` with the word, its state kept as it was. -/
def Obligations.ReservedWordsAreRefused : Prop :=
  ∀ w : Word,
    ((∃ r, decode w = .error r) ↔
      (w.toNat / 2 ^ 28 ≠ 1 ∧ w.toNat / 2 ^ 28 ≠ 2) ∨ (w.toNat / 2 ^ 28 = 2 ∧ w.toNat % 2 ^ 28 ≠ 0)) ∧
    ∀ (s : State) (o : Bool) (rest : List HostCommand), s.stream = ⟨w, o⟩ :: rest → (∃ r, decode w = .error r) →
      step s = .refused (.illegalCommand w) ∧
        Verdict.step ⟨s, none⟩ = ⟨s, some (.refusal (.illegalCommand w))⟩

/-- The opcode map of R89: its nine rows; a word decodes exactly when it selects a row, and then it selects the row of
the command it decodes to; no word selects two rows. -/
def Obligations.OpcodeMapGovernsDecoding : Prop :=
  opcodeMap =
    [⟨"STEP.SINGLE", 0x11000000, 0xF7000000⟩, ⟨"STEP.DOUBLE", 0x12000000, 0xF7000000⟩,
      ⟨"STEP.INTERLEAVE", 0x13000000, 0xF7000000⟩, ⟨"STEP.MICROSTEP", 0x14000000, 0xF7000000⟩,
      ⟨"STEP.M0", 0x10000000, 0xF7000000⟩, ⟨"STEP.M5", 0x15000000, 0xF7000000⟩, ⟨"STEP.M6", 0x16000000, 0xF7000000⟩,
      ⟨"STEP.M7", 0x17000000, 0xF7000000⟩, ⟨"RELEASE", 0x20000000, 0xFFFFFFFF⟩] ∧
  ∀ w : Word,
    ((∃ i, decode w = .ok i) ↔ ∃ r ∈ opcodeMap, w &&& r.mask = r.code) ∧
    (∀ i, decode w = .ok i → w &&& i.opcodeRow.mask = i.opcodeRow.code) ∧
    ∀ r ∈ opcodeMap, ∀ r' ∈ opcodeMap, w &&& r.mask = r.code → w &&& r'.mask = r'.code → r = r'

/-- The worked encodings, which the spec derives in R94: each line assembles to its word, and the word decodes to its command. -/
def Obligations.WorkedEncodings : Prop :=
  (assembleLine "STEP FORWARD, SINGLE, 1000".toList = some 0x110003E8 ∧
    decode 0x110003E8 = .ok (.stepSingle .forward 1000)) ∧
  (assembleLine "STEP FORWARD, SINGLE".toList = some 0x11000000 ∧ decode 0x11000000 = .ok (.stepSingle .forward 0)) ∧
  (assembleLine "STEP BACKWARD, DOUBLE".toList = some 0x1A000000 ∧ decode 0x1A000000 = .ok (.stepDouble .backward 0)) ∧
  (assembleLine "STEP FORWARD, INTERLEAVE, 500".toList = some 0x130001F4 ∧
    decode 0x130001F4 = .ok (.stepInterleave .forward 500)) ∧
  (assembleLine "STEP BACKWARD, MICROSTEP, 800".toList = some 0x1C000320 ∧
    decode 0x1C000320 = .ok (.stepMicrostep .backward 800)) ∧
  (assembleLine "STEP FORWARD, #0, 7".toList = some 0x10000007 ∧ decode 0x10000007 = .ok (.stepM0 .forward 7)) ∧
  (assembleLine "STEP BACKWARD, #7, 0xFFFFFF".toList = some 0x1FFFFFFF ∧
    decode 0x1FFFFFFF = .ok (.stepM7 .backward 16777215)) ∧
  (assembleLine "RELEASE".toList = some 0x20000000 ∧ decode 0x20000000 = .ok .release)

/-- The assembler's encoding formula and its errors (R92): a hold up to 16777215 gives
`(1 << 28) | (dir << 27) | (mode << 24) | hold`, the two-operand form gives a zero hold (R93), and a larger hold or a raw
mode above 7 is an error. -/
def Obligations.AssemblerEncodesOrRejects : Prop :=
  ∀ y ∈ [(0, Dir.forward), (1, Dir.backward)],
    (∀ x ∈ [(0, AsmMode.raw 0), (1, .raw 1), (2, .raw 2), (3, .raw 3), (4, .raw 4), (5, .raw 5), (6, .raw 6), (7, .raw 7),
        (1, .single), (2, .double), (3, .interleave), (4, .microstep)],
      assemble (.step y.2 x.2 none) = assemble (.step y.2 x.2 (some 0)) ∧
      ∀ n : Nat, assemble (.step y.2 x.2 (some n)) =
        if n ≤ 16777215 then some (BitVec.ofNat 32 (1 * 2 ^ 28 + y.1 * 2 ^ 27 + x.1 * 2 ^ 24 + n)) else none) ∧
    ∀ (k : Nat) (h : Option Nat), 7 < k → assemble (.step y.2 (.raw k) h) = none

/-- Disassembling a command and assembling the result gives the command's word (R92, R93). -/
def Obligations.DisassemblyReassembles : Prop :=
  ∀ i : Instr, assemble (disassemble i) = some (encode i)

/-- A command sent over a byte-wide link of either byte order arrives as that command, the later bytes untouched
(R65, R91): `CMD_BYTE_ORDER` is open, so the statement holds for both orders. -/
def Obligations.LinkCarriesCommands : Prop :=
  ∀ (o : ByteOrder) (i : Instr) (rest : List Byte), decodeLink o (linkBytes o (encode i) ++ rest) = .ok (i, rest)

/-- A step runs the decoded command: where the host's next word decodes to `i` and is issued in its turn, the step is
`exec i` at that state, and then the command leaves the stream and the command number advances by one (R27, R181). That the
stream and the number stand in `State` is the model's choice, log entry 17. -/
def Obligations.StepRunsIssuedCommand : Prop :=
  ∀ (s : State) (w : Word) (rest : List HostCommand) (i : Instr),
    s.stream = ⟨w, false⟩ :: rest → decode w = .ok i →
      Completes (exec i s) fun t => step s = .next { t with stream := rest, completed := s.completed + 1 }

/-- With no command left the block waits: a step changes nothing (R203; the model's reading, log entry 6). -/
def Obligations.WaitingChangesNothing : Prop :=
  ∀ s : State, s.stream = [] → step s = .next s

/-- A command issued while the one before it executes is the fault `HostOverlap`, recording its word, and it never
starts; before any command has run there is none to overlap, and the command runs (R172, R181; log entry 7). -/
def Obligations.OverlapFaults : Prop :=
  ∀ (s : State) (w : Word) (rest : List HostCommand) (i : Instr),
    s.stream = ⟨w, true⟩ :: rest → decode w = .ok i →
      (s.completed ≠ 0 → step s = .fault (.hostOverlap w)) ∧
      (s.completed = 0 → Completes (exec i s) fun t => step s = .next { t with stream := rest, completed := 1 })

/-- A recorded stop is never cleared, and a stop keeps the state as it was (R173; the record's form is log entry 16). -/
def Obligations.StopIsKept : Prop :=
  (∀ (n : Nat) (s : State) (x : Stop), Verdict.run n ⟨s, some x⟩ = ⟨s, some x⟩) ∧
  (∀ (s : State) (f : Fault), step s = .fault f → Verdict.step ⟨s, none⟩ = ⟨s, some (.fault f)⟩) ∧
  ∀ (s : State) (r : Refusal), step s = .refused r → Verdict.step ⟨s, none⟩ = ⟨s, some (.refusal r)⟩

/-- A stream of well-formed commands, each issued in its turn, runs to its end: as many steps as there are commands
complete them all, with nothing stopped, and the command number has advanced by as many (R27, R170, R221). The
stream and the number are the model's own fields, log entry 17. -/
def Obligations.ProperStreamRunsToItsEnd : Prop :=
  ∀ s : State, (∀ c ∈ s.stream, c.proper = true) →
    ∃ t, Verdict.run s.stream.length ⟨s, none⟩ = ⟨t, none⟩ ∧ Verdict.ended ⟨t, none⟩ = true ∧
      t.completed = s.completed + s.stream.length

/-- Every STEP command, in every mode and both configurations, completes and leaves the cursor one past the wrapped
index: the wrap is by reset to 0 or `L - 1`, with `L` 8 for INTERLEAVE and 4 for every other mode value, and no wrap
follows the advance (R100 to R105). -/
def Obligations.StepWrapsThenAdvances : Prop :=
  ∀ (m : Mode) (d : Dir) (h : Micros) (s : State),
    Completes (exec (Instr.ofStep m d h) s) fun t =>
      let c := s.currentStep.toInt
      let len : Int := if m = .interleave then 8 else 4
      let p : Int := if len ≤ c then 0 else if c < 0 then len - 1 else c
      t.currentStep.toInt = (if d = .forward then p + 1 else p - 1) ∧
        -1 ≤ t.currentStep.toInt ∧ t.currentStep.toInt ≤ 8

/-- The sequence law, which the spec derives in R108 from the wrap and the advance: steps of one mode and direction, of any holds, move the normalised cursor by one row each
modulo `L`, and assert the rows in that order; `L` of them visit every index exactly once. -/
def Obligations.SequenceLaw : Prop :=
  ∀ (m : Mode) (d : Dir) (hs : List Micros) (s : State),
    (Completes (execAll (hs.map (Instr.ofStep m d)) s) fun t =>
      (wrappedIndex m t : Int) = ((wrappedIndex m s : Int) + dirSign d * hs.length) % cycleLength m ∧
      (assertsRow m s = true → ∃ es, t.trace = s.trace ++ es ∧
        (rowsIn es).map some = (List.range hs.length).map fun j : Nat =>
          (stepTable m)[(((wrappedIndex m s : Int) + dirSign d * (j : Int)) % cycleLength m).toNat]?)) ∧
    ((List.range (cycleLength m)).map fun j : Nat =>
      (((wrappedIndex m s : Int) + dirSign d * (j : Int)) % cycleLength m).toNat).Perm (List.range (cycleLength m))

/-- The symmetry law, which the spec derives in R109 (conflict C4 of 90_conflicts.md): `N` FORWARD steps and then `N` BACKWARD steps of one mode leave the normalised cursor as it
was; the raw cursor need not be: from `L - 1`, one of each leaves -1. -/
def Obligations.SymmetryLaw : Prop :=
  ∀ (m : Mode) (hs : List (Micros × Micros)) (s : State),
    (Completes
      (execAll (hs.map (fun x => Instr.ofStep m .forward x.1) ++ hs.map (fun x => Instr.ofStep m .backward x.2)) s)
      fun t => wrappedIndex m t = wrappedIndex m s) ∧
    ∀ h h' : Micros, s.currentStep.toInt = (cycleLength m : Int) - 1 →
      Completes (execAll [Instr.ofStep m .forward h, Instr.ofStep m .backward h'] s) fun t =>
        t.currentStep.toInt = -1 ∧ wrappedIndex m t = cycleLength m - 1

/-- The reversal law, which the spec derives in R110 from the wrap and the advance: after a step that asserts row `p`, the
first step the other way in the same mode asserts the row the old direction would have asserted next, and only the step
after it asserts row `p` again. -/
def Obligations.ReversalLaw : Prop :=
  ∀ (m : Mode) (d d' : Dir) (h1 h2 h3 : Micros) (s : State), d ≠ d' → assertsRow m s = true →
    Completes (execAll [Instr.ofStep m d h1, Instr.ofStep m d' h2, Instr.ofStep m d' h3] s) fun t =>
      let p := wrappedIndex m s
      ∃ es, t.trace = s.trace ++ es ∧
        (rowsIn es).map some =
          [(stepTable m)[p]?, (stepTable m)[(((p : Int) + dirSign d) % cycleLength m).toNat]?, (stepTable m)[p]?]

/-- The mode-change law, which the spec derives in R111: a STEP in one mode after a STEP in another starts at the row the raw cursor normalises to
under its own cycle length; row 2 of INTERLEAVE is 0100 and row 2 of SINGLE is 0010. -/
def Obligations.ModeChangeLaw : Prop :=
  (∀ (m m' : Mode) (d d' : Dir) (h h' : Micros) (s : State), assertsRow m' s = true →
    Completes (exec (Instr.ofStep m d h) s) fun t =>
      Completes (exec (Instr.ofStep m' d' h') t) fun u =>
        ∃ es, u.trace = t.trace ++ es ∧
          (rowsIn es).map some = [(stepTable m')[normCursor t.currentStep.toInt (cycleLength m')]?]) ∧
  (stepTable .interleave)[2]?.map rowBits = some 0b0100 ∧ (stepTable .single)[2]?.map rowBits = some 0b0010

/-- The wrap at the ends of the cycle, R112: from `L` a FORWARD step reads row 0, and from -1 a BACKWARD step reads
row `L - 1`. -/
def Obligations.WrapAtCycleEnds : Prop :=
  ∀ (m : Mode) (h : Micros) (s : State), assertsRow m s = true →
    (s.currentStep.toInt = cycleLength m →
      Completes (exec (Instr.ofStep m .forward h) s) fun t =>
        ∃ es, t.trace = s.trace ++ es ∧ (rowsIn es).map some = [(stepTable m)[0]?]) ∧
    (s.currentStep.toInt = -1 →
      Completes (exec (Instr.ofStep m .backward h) s) fun t =>
        ∃ es, t.trace = s.trace ++ es ∧ (rowsIn es).map some = [(stepTable m)[cycleLength m - 1]?])

/-- The discrete commands STEP.SINGLE, STEP.DOUBLE and STEP.INTERLEAVE complete, appending exactly the events of R120 in
its order: the two ceiling duties where there is PWM, the row at the wrapped index, and one delay when the hold is
above 0. -/
def Obligations.DiscreteCommandEvents : Prop :=
  ∀ m ∈ [Mode.single, .double, .interleave], ∀ (d : Dir) (h : Micros) (s : State),
    Completes (exec (Instr.ofStep m d h) s) fun t =>
      ∃ r, (stepTable m)[wrappedIndex m s]? = some r ∧
        t.trace = s.trace ++
          (match s.pwm with
            | some u => [.duty u.pinA u.dutyMax, .duty u.pinB u.dutyMax]
            | none => []) ++ [.assertCoils r] ++ (if h = 0 then [] else [.delay h])

/-- What the pins hold after STEP.SINGLE, STEP.DOUBLE or STEP.INTERLEAVE: the row's levels through the pin multiplex, and
`dutyMax` on both PWM pins (R30, R32, R120). -/
def Obligations.DiscreteCommandLatches : Prop :=
  ∀ m ∈ [Mode.single, .double, .interleave], ∀ (d : Dir) (h : Micros) (s : State), s.pins.Nodup →
    Completes (exec (Instr.ofStep m d h) s) fun t =>
      (∃ r, (stepTable m)[wrappedIndex m s]? = some r ∧ coilsHold t r) ∧
        ∀ u, s.pwm = some u → dutiesHold t u u.dutyMax u.dutyMax

/-- The time a discrete command asks for: one delay of `hold` when it is above 0, and none otherwise (R124). -/
def Obligations.DiscreteCommandDelay : Prop :=
  ∀ m ∈ [Mode.single, .double, .interleave], ∀ (d : Dir) (h : Micros) (s : State),
    Completes (exec (Instr.ofStep m d h) s) fun t =>
      ∃ es, t.trace = s.trace ++ es ∧ delaysIn es = if 0 < h.toNat then [h.toNat] else []

/-- STEP.MICROSTEP completes. With PWM it appends exactly the events of R141 in its order: the row, then for each ramp
point the scaled duty of coil A, that of coil B, and the pause, the indices ascending for FORWARD and descending for
BACKWARD. Without PWM it appends none (R140). -/
def Obligations.MicrostepCommandEvents : Prop :=
  ∀ (d : Dir) (h : Micros) (s : State),
    Completes (exec (.stepMicrostep d h) s) fun t =>
      match s.pwm with
      | none => t.trace = s.trace
      | some u =>
        ∃ r es, (stepTable .microstep)[wrappedIndex .microstep s]? = some r ∧ t.trace = s.trace ++ es ∧
          es = .assertCoils r :: (List.range 8).flatMap fun k =>
            let i := if d = .forward then 8 * wrappedIndex .microstep s + k else 8 * wrappedIndex .microstep s + 7 - k
            [.duty u.pinA (scale (curve .a i) u.pf), .duty u.pinB (scale (curve .b i) u.pf),
              .delay (BitVec.ofNat 24 (h.toNat / 8))]

/-- The event count of STEP.MICROSTEP, which the spec derives in R146: 25 with PWM, none without. -/
def Obligations.MicrostepEventCount : Prop :=
  ∀ (d : Dir) (h : Micros) (s : State),
    Completes (exec (.stepMicrostep d h) s) fun t =>
      t.trace.length = s.trace.length + if s.hasPwm then 25 else 0

/-- STEP.MICROSTEP without PWM changes the cursor and nothing else: the wrap with `L = 4` and the advance
(R140, R216). -/
def Obligations.MicrostepWithoutPwmOnlyMovesCursor : Prop :=
  ∀ (d : Dir) (h : Micros) (s : State), s.hasPwm = false →
    ∃ c : Cursor, exec (.stepMicrostep d h) s = .next { s with currentStep := c } ∧
      c.toInt = (normCursor s.currentStep.toInt 4 : Int) + dirSign d

/-- What the pins hold after STEP.MICROSTEP with PWM: the row's levels, and the scaled duties of the last ramp point,
index `8s + 7` for FORWARD and `8s` for BACKWARD (R32, R141, R143). -/
def Obligations.MicrostepCommandLatches : Prop :=
  ∀ (d : Dir) (h : Micros) (s : State) (u : PwmUnit), s.pins.Nodup → s.pwm = some u →
    Completes (exec (.stepMicrostep d h) s) fun t =>
      let last := if d = .forward then 8 * wrappedIndex .microstep s + 7 else 8 * wrappedIndex .microstep s
      (∃ r, (stepTable .microstep)[wrappedIndex .microstep s]? = some r ∧ coilsHold t r) ∧
        dutiesHold t u (scale (curve .a last) u.pf) (scale (curve .b last) u.pf)

/-- Direction symmetry, which the spec derives in R144: from one state, the FORWARD and the BACKWARD command read the same 8 indices, in reverse
order, and give each PWM pin the same duties reversed. -/
def Obligations.MicrostepDirectionSymmetry : Prop :=
  ∀ (h : Micros) (s : State) (u : PwmUnit), s.pwm = some u → u.pinA ≠ u.pinB →
    rampWalk .forward (wrappedIndex .microstep s) = (List.range 8).map (8 * wrappedIndex .microstep s + ·) ∧
    rampWalk .backward (wrappedIndex .microstep s) = (rampWalk .forward (wrappedIndex .microstep s)).reverse ∧
    Completes (exec (.stepMicrostep .forward h) s) fun t =>
      Completes (exec (.stepMicrostep .backward h) s) fun t' =>
        ∃ es es', t.trace = s.trace ++ es ∧ t'.trace = s.trace ++ es' ∧
          dutiesOn u.pinA es' = (dutiesOn u.pinA es).reverse ∧ dutiesOn u.pinB es' = (dutiesOn u.pinB es).reverse

/-- The delays of a MICROSTEP command with PWM, R145: exactly eight of `hold div 8`, one after each pair of duties,
whatever the hold; their total lies in `[hold - 7, hold]`. -/
def Obligations.MicrostepDelays : Prop :=
  ∀ (d : Dir) (h : Micros) (s : State) (u : PwmUnit), s.pwm = some u →
    Completes (exec (.stepMicrostep d h) s) fun t =>
      ∃ es, t.trace = s.trace ++ es ∧ delaysIn es = List.replicate 8 (h.toNat / 8) ∧
        (delaysIn es).sum = 8 * (h.toNat / 8) ∧ h.toNat ≤ (delaysIn es).sum + 7 ∧ (delaysIn es).sum ≤ h.toNat ∧
        ∃ (r : Row) (ps : List (Byte × Byte)), es = .assertCoils r :: ps.flatMap fun x =>
          [.duty u.pinA x.1, .duty u.pinB x.2, .delay (BitVec.ofNat 24 (h.toNat / 8))]

/-- Opposing ramp, which the spec derives in R148: over the 8 points of a FORWARD MICROSTEP command the two coils' duties move in opposite
directions, at any power factor; at `s = 1` coil A does not decrease and coil B does not increase, and at `pf = 1` they
run from 0 to 255 and from 255 to 0. -/
def Obligations.MicrostepOpposingRamp : Prop :=
  ∀ (h : Micros) (s : State) (u : PwmUnit), s.pwm = some u → u.pinA ≠ u.pinB →
    Completes (exec (.stepMicrostep .forward h) s) fun t =>
      ∃ es, t.trace = s.trace ++ es ∧
        let a := (dutiesOn u.pinA es).map BitVec.toNat
        let b := (dutiesOn u.pinB es).map BitVec.toNat
        a.length = 8 ∧ b.length = 8 ∧
        ((a.Pairwise (· ≤ ·) ∧ b.Pairwise (· ≥ ·)) ∨ (a.Pairwise (· ≥ ·) ∧ b.Pairwise (· ≤ ·))) ∧
        (wrappedIndex .microstep s = 1 → a.Pairwise (· ≤ ·) ∧ b.Pairwise (· ≥ ·) ∧
          (u.pf = 1 → a.head? = some 0 ∧ a.getLast? = some 255 ∧ b.head? = some 255 ∧ b.getLast? = some 0))

/-- The duties in force when a MICROSTEP row is asserted are those the command before left: the row is the command's
first event, and asserting it writes no duty (R147, R213). -/
def Obligations.DutiesInForceAtMicrostepRow : Prop :=
  ∀ (d : Dir) (h : Micros) (s : State) (u : PwmUnit), s.pwm = some u →
    Completes (exec (.stepMicrostep d h) s) fun t =>
      ∃ r es, t.trace = s.trace ++ .assertCoils r :: es ∧ rowsIn es = [] ∧
        t.duty = (emitAll (emit s (.assertCoils r)) es).duty ∧ (emit s (.assertCoils r)).duty = s.duty

/-- An unrecognized mode (STEP.M0, STEP.M5, STEP.M6, STEP.M7) wraps with `L = 4`, advances, and does nothing else: no
event, no delay whatever the hold, every latch unchanged; and the example of R106. -/
def Obligations.UnrecognizedModesOnlyMoveCursor : Prop :=
  (∀ m ∈ [Mode.m0, .m5, .m6, .m7], ∀ (d : Dir) (h : Micros) (s : State),
    ∃ c : Cursor, exec (Instr.ofStep m d h) s = .next { s with currentStep := c } ∧
      c.toInt = (if 4 ≤ s.currentStep.toInt then 0 else if s.currentStep.toInt < 0 then 3 else s.currentStep.toInt) +
        (if d = .forward then 1 else -1)) ∧
  ∀ s : State, s.currentStep = 8 →
    decode 0x15000064 = .ok (.stepM5 .forward 100) ∧ exec (.stepM5 .forward 100) s = .next { s with currentStep := 1 }

/-- RELEASE is the word 0x20000000 and no other, the other words with `OP` 0010 being refused as reserved; it completes
in every state, appends `AssertCoils(0,0,0,0)` alone, leaves all four coil latches 0, and keeps the cursor (R160). -/
def Obligations.ReleaseDeassertsCoils : Prop :=
  (∀ w : Word, decode w = .ok .release ↔ w = 0x20000000) ∧
  (∀ w : Word, w.toNat / 2 ^ 28 = 2 → w.toNat % 2 ^ 28 ≠ 0 → ∃ r, decode w = .error r) ∧
  ∀ s : State, Completes (exec .release s) fun t =>
    t.trace = s.trace ++ [.assertCoils ⟨false, false, false, false⟩] ∧ coilsHold t ⟨false, false, false, false⟩ ∧
      t.currentStep = s.currentStep

/-- RELEASE leaves everything but the coil levels and the trace: the cursor, neither read, wrapped nor written, the duty
latches, and the level of every other pin; it appends no duty and no delay (R161, R162). -/
def Obligations.ReleaseFrame : Prop :=
  ∀ s : State, Completes (exec .release s) fun t =>
    t.currentStep = s.currentStep ∧ (∀ c, exec .release { s with currentStep := c } = .next { t with currentStep := c }) ∧
      t.duty = s.duty ∧ t.isOutput = s.isOutput ∧ SameConfig s t ∧ t.stream = s.stream ∧
      t.completed = s.completed ∧ (∀ p, p ∉ s.coilPins → readPin t.level p = readPin s.level p) ∧
      ∃ es, t.trace = s.trace ++ es ∧ delaysIn es = [] ∧ ∀ p, dutiesOn p es = []

/-- After RELEASE, the next STEP asserts the row at the normalised cursor; in the same mode that is one past the row
asserted before RELEASE, in the direction of the last STEP (the spec derives this in R163). -/
def Obligations.StepAfterRelease : Prop :=
  ∀ (m m' : Mode) (d d' : Dir) (h h' : Micros) (s : State), assertsRow m s = true → assertsRow m' s = true →
    Completes (execAll [Instr.ofStep m d h, .release] s) fun t =>
      Completes (exec (Instr.ofStep m' d' h') t) fun u =>
        (∃ es, u.trace = t.trace ++ es ∧
          (rowsIn es).map some = [(stepTable m')[normCursor t.currentStep.toInt (cycleLength m')]?]) ∧
        (m' = m → ∃ es, u.trace = s.trace ++ es ∧
          (rowsIn es).map some = [(stepTable m)[wrappedIndex m s]?, some ⟨false, false, false, false⟩,
            (stepTable m)[(((wrappedIndex m s : Int) + dirSign d) % cycleLength m).toNat]?])

/-- The frame of every STEP command: the configuration registers, the output bits, the stream and the command number are
unchanged, and so is the level of every pin but the coil pins and the duty of every pin but the PWM pins (R20 to R25,
R30, R35). -/
def Obligations.StepCommandFrame : Prop :=
  ∀ (m : Mode) (d : Dir) (h : Micros) (s : State),
    Completes (exec (Instr.ofStep m d h) s) fun t =>
      SameConfig s t ∧ t.isOutput = s.isOutput ∧ t.stream = s.stream ∧ t.completed = s.completed ∧
        (∀ p, p ∉ s.coilPins → readPin t.level p = readPin s.level p) ∧
        ∀ p, p ∉ s.pwmPins → readPin t.duty p = readPin s.duty p

/-- The properties S1 to S4 of the open `SCALE` (R142). Outside [0, 1], which R142 leaves out, they hold by the model's
choice, log entry 19. -/
def Obligations.ScaleProperties : Prop :=
  ∀ (v w : Byte) (p q : Rat), scale v 1 = v ∧ scale v 0 = 0 ∧ (scale v p).toNat ≤ v.toNat ∧
    (v.toNat ≤ w.toNat → p ≤ q → (scale v p).toNat ≤ (scale w q).toNat)

/-- The reference `SCALE`, `floor(v * pf)`, has properties S1 to S4 on [0, 1] (R142, decision D6). -/
def Obligations.ReferenceScaleQualifies : Prop :=
  ∀ (v w : Byte) (p q : Rat), 0 ≤ p → q ≤ 1 →
    referenceScale v 1 = v ∧ referenceScale v 0 = 0 ∧ (p ≤ 1 → (referenceScale v p).toNat ≤ v.toNat) ∧
      (v.toNat ≤ w.toNat → p ≤ q → (referenceScale v p).toNat ≤ (referenceScale w q).toNat)

/-- The curve tables, whatever their open entries: the four fixed entries and what is asserted from them at `pf = 1`
(R60), and opposite ramps in every window (R61). -/
def Obligations.CurveTablesQualify : Prop :=
  (curve .a 8 = 0 ∧ curve .b 8 = 255 ∧ curve .a 15 = 255 ∧ curve .b 15 = 0 ∧
    ∀ (c : Coil) (i : Nat), scale (curve c i) 1 = curve c i) ∧
  ∀ k, k < 4 →
    (∀ i j, 8 * k ≤ i → i ≤ j → j ≤ 8 * k + 7 →
      (curve .a i).toNat ≤ (curve .a j).toNat ∧ (curve .b j).toNat ≤ (curve .b i).toNat) ∨
    (∀ i j, 8 * k ≤ i → i ≤ j → j ≤ 8 * k + 7 →
      (curve .a j).toNat ≤ (curve .a i).toNat ∧ (curve .b i).toNat ≤ (curve .b j).toNat)

/-- Window 1 of the curves, which the spec derives in R62 from R60 and R61: `CURVE_A` rises and `CURVE_B` falls. -/
def Obligations.WindowOneRises : Prop :=
  ∀ i j, 8 ≤ i → i ≤ j → j ≤ 15 →
    (curve .a i).toNat ≤ (curve .a j).toNat ∧ (curve .b j).toNat ≤ (curve .b i).toNat

/-- The step tables are the reference instance of R55, which the model chooses (decision D8, log entry 5). That choice
fixes every row beyond SINGLE row 0, and that the even INTERLEAVE rows are the single-terminal ones, where R53 says only
that the two kinds alternate. The chosen rows meet the constraints of R51 to R54. -/
def Obligations.StepTablesQualify : Prop :=
  ((stepTable .single).length = 4 ∧ (∀ r ∈ stepTable .single, oneTerminal r = true) ∧
    (stepTable .single).head? = some ⟨true, false, false, false⟩) ∧
  ((stepTable .double).length = 4 ∧ ∀ r ∈ stepTable .double, adjacentPair r = true) ∧
  ((stepTable .interleave).length = 8 ∧ ∀ k, k < 8 → ∃ r, (stepTable .interleave)[k]? = some r ∧
    if k % 2 = 0 then oneTerminal r = true else adjacentPair r = true) ∧
  ((stepTable .microstep).length = 4 ∧ ∀ r ∈ stepTable .microstep, adjacentPair r = true) ∧
  (stepTable .single).map rowBits = [0b1000, 0b0100, 0b0010, 0b0001] ∧
  (stepTable .double).map rowBits = [0b1100, 0b0110, 0b0011, 0b1001] ∧
  (stepTable .interleave).map rowBits = [0b1000, 0b1100, 0b0100, 0b0110, 0b0010, 0b0011, 0b0001, 0b1001] ∧
  (stepTable .microstep).map rowBits = [0b1100, 0b0110, 0b0011, 0b1001]

/-- No row sets both terminals of one coil, which the spec derives in R57. -/
def Obligations.NoRowShortsACoil : Prop :=
  ∀ m, ∀ r ∈ stepTable m, ¬(r.a1 = true ∧ r.a2 = true) ∧ ¬(r.b1 = true ∧ r.b2 = true)

/-- A table read gives its entry inside the table and the fault `ModelInvariantBroken` outside it; a mode with a table
has as many rows as its cycle length, so the wrapped index is always inside (R58, R64). -/
def Obligations.TableReadsStayInside : Prop :=
  (∀ (m : Mode) (k : Nat), (∀ r, readRow m k = .ok r ↔ (stepTable m)[k]? = some r) ∧
    ((stepTable m).length ≤ k → readRow m k = .error (.modelInvariantBroken k))) ∧
  (∀ (c : Coil) (i : Nat), (i < 32 → readCurve c i = .ok (curve c i)) ∧
    (32 ≤ i → readCurve c i = .error (.modelInvariantBroken i))) ∧
  (∀ m ∈ [Mode.single, .double, .interleave, .microstep], (stepTable m).length = cycleLength m) ∧
  ∀ (m : Mode) (s : State), wrappedIndex m s < cycleLength m ∧ ∀ (d : Dir), ∀ i ∈ rampWalk d (wrappedIndex .microstep s), i < 32

/-- Every command completes in every state: none faults and none is refused (R170). -/
def Obligations.EveryCommandCompletes : Prop :=
  ∀ (i : Instr) (s : State), ∃ t, exec i s = .next t

/-- Reset from any configuration (R201): two equal pins are refused with `DuplicatePin` and such a pin; every other
configuration is accepted, and leaves the registers loaded, the power factor clamped, the cursor 0, every level and duty
UNSET, and one `ConfigureOutput` event for each pin in the order A1, A2, B1, B2, PWMA, PWMB. -/
def Obligations.ConstructionLoadsOrRefuses : Prop :=
  ∀ c : Inputs,
    (c.pins.Nodup → Completes (construct c) fun s =>
      s.pinA1 = c.pinA1 ∧ s.pinA2 = c.pinA2 ∧ s.pinB1 = c.pinB1 ∧ s.pinB2 = c.pinB2 ∧
      (s.pwm = match c.pwm with
        | none => none
        | some u =>
          let pf := if u.powerFactor < 0 then 0 else if 1 < u.powerFactor then 1 else u.powerFactor
          some ⟨u.pinA, u.pinB, pf, scale 255 pf⟩) ∧
      s.currentStep = 0 ∧ (∀ p, readPin s.level p = none ∧ readPin s.duty p = none) ∧
      (∀ p, readPin s.isOutput p = if p ∈ c.pins then some true else none) ∧
      s.trace = [.configureOutput c.pinA1, .configureOutput c.pinA2, .configureOutput c.pinB1, .configureOutput c.pinB2] ++
        (match c.pwm with
          | none => []
          | some u => [.configureOutput u.pinA, .configureOutput u.pinB])) ∧
    (¬c.pins.Nodup → ∃ p, 2 ≤ c.pins.count p ∧ construct c = .refused (.duplicatePin p))

/-- `State.reset` is what the construction of `Config.resetInputs` leaves; that configuration is the model's choice
(R35, R201; log entry 1). -/
def Obligations.ResetIsConstructed : Prop :=
  construct Config.resetInputs = .next State.reset

/-- After reset from any accepted configuration the block waits for the host; its first STEP runs at cursor 0, asserting
row 0 of its mode, or appending nothing for an unrecognized mode or for MICROSTEP without PWM (the spec derives this in R203; that
waiting is a step that changes nothing is the model's reading, log entry 6). -/
def Obligations.FirstCommandAfterReset : Prop :=
  ∀ c : Inputs, c.pins.Nodup → Completes (construct c) fun s =>
    step s = .next s ∧ s.currentStep = 0 ∧
    ∀ (m : Mode) (d : Dir) (h : Micros), Completes (exec (Instr.ofStep m d h) s) fun t =>
      ∃ es, t.trace = s.trace ++ es ∧
        if isUnrecognized m || (decide (m = .microstep) && c.pwm.isNone) then es = []
        else (rowsIn es).map some = [(stepTable m)[0]?]

/-- The invariant holds at `State.reset`, whose configuration is the model's choice (log entry 1). -/
def Obligations.ResetMeetsInvariant : Prop :=
  Inv State.reset

/-- The invariant holds after the construction of every accepted configuration (R35, R201). -/
def Obligations.ConstructionMeetsInvariant : Prop :=
  ∀ (c : Inputs) (s : State), construct c = .next s → Inv s

/-- Every step keeps the invariant: pins distinct, cursor in [-1, 8], pin maps canonical, latches the replay of the
trace, `pf` in [0, 1] with `dutyMax = SCALE(255, pf)`, every pin an output, no pin outside the block's roles written, and
no coil driven at both ends (R20 to R35, R57). -/
def Obligations.StepKeepsWholeInvariant : Prop :=
  ∀ s t : State, Inv s → step s = .next t → Inv t

/-- Every step keeps the cursor in [-1, 8], so the 16-bit register never overflows (the spec
derives this in R28). -/
def Obligations.StepKeepsCursorInRange : Prop :=
  ∀ s t : State, CursorInRange s → step s = .next t → CursorInRange t

/-- Every step keeps the three pin maps in canonical form, so that equal pin banks are equal data. -/
def Obligations.StepKeepsBanksCanonical : Prop :=
  ∀ s t : State, BanksCanonical s → step s = .next t → BanksCanonical t

/-- Every step keeps the latches what the trace's events make of them: a latch changes by an event and by nothing else
(R32). -/
def Obligations.StepKeepsLatchesReplayed : Prop :=
  ∀ s t : State, LatchesFollowTrace s → step s = .next t → LatchesFollowTrace t

/-- Every step keeps both coils free of a bridge driven at both ends, where the pins are distinct (the spec
derives R57 from the tables). -/
def Obligations.StepKeepsCoilsUnshorted : Prop :=
  ∀ s t : State, s.pins.Nodup → CoilsNotShorted s → step s = .next t → CoilsNotShorted t

/-- A step never alters, merges or drops an event of the trace: it appends (R67, R69). -/
def Obligations.TraceOnlyGrows : Prop :=
  ∀ s t : State, step s = .next t → ∃ es, t.trace = s.trace ++ es

/-- The configuration registers are read-only after reset: no step writes them (R20, R22, R24, R25). -/
def Obligations.ConfigurationIsReadOnly : Prop :=
  ∀ s t : State, step s = .next t → SameConfig s t

/-- No command writes a pin outside the block's roles, and none configures an output: the events a command appends give
duties to the PWM pins only (R30, R35). -/
def Obligations.CommandsEmitOnlyOwnPins : Prop :=
  ∀ (i : Instr) (s : State), Completes (exec i s) fun t =>
    ∃ es, t.trace = s.trace ++ es ∧ ∀ e ∈ es,
      match e with
      | .configureOutput _ => False
      | .assertCoils _ => True
      | .duty p _ => p ∈ s.pwmPins
      | .delay _ => True

/-- What a command emits and where it leaves the cursor depend on the configuration and the raw cursor alone: two
instances that agree on those cannot be told apart by it, whatever their latches, traces and streams hold (R34, R184). -/
def Obligations.CommandsReadOnlyConfigAndCursor : Prop :=
  ∀ (i : Instr) (s s' : State), SameConfig s s' → s'.currentStep = s.currentStep →
    Completes (exec i s) fun t => Completes (exec i s') fun t' =>
      t'.currentStep = t.currentStep ∧ ∃ es, t.trace = s.trace ++ es ∧ t'.trace = s'.trace ++ es

/-- Composing two instances: a pin that both would drive is refused with `SharedPin`, recording such a pin, and instances
of distinct pins are accepted, each in its own construction's state (R184). Which shared pin is recorded is the model's choice, log entry 9. -/
def Obligations.SharedPinsRefused : Prop :=
  ∀ c c' : Inputs, c.pins.Nodup → c'.pins.Nodup →
    ((∃ p, p ∈ c.pins ∧ p ∈ c'.pins) →
      ∃ p, p ∈ c.pins ∧ p ∈ c'.pins ∧ compose [c, c'] = .refused (.sharedPin p)) ∧
    ((∀ p, p ∈ c.pins → p ∉ c'.pins) →
      Completes (compose [c, c']) fun ss =>
        ∃ s s', ss = [s, s'] ∧ construct c = .next s ∧ construct c' = .next s')

/-- A step of one instance leaves every other instance as it was (R184). -/
def Obligations.InstancesAreIsolated : Prop :=
  ∀ (k : Nat) (ss ts : List State), platformStep k ss = .next ts →
    ts.length = ss.length ∧ ∀ j, j ≠ k → ts[j]? = ss[j]?
end

