-- ==== Sys2Proof/Laws/State.lean ====
section
/-! SUPPORT. One lemma per field per update of the state, each true by unfolding the update once. -/

namespace Sys2Proof.Machine

section wrapCursor
variable (m : Mode) (s : State)

@[simp] theorem wrapCursor_pinA1 : (wrapCursor m s).pinA1 = s.pinA1 := rfl
@[simp] theorem wrapCursor_pinA2 : (wrapCursor m s).pinA2 = s.pinA2 := rfl
@[simp] theorem wrapCursor_pinB1 : (wrapCursor m s).pinB1 = s.pinB1 := rfl
@[simp] theorem wrapCursor_pinB2 : (wrapCursor m s).pinB2 = s.pinB2 := rfl
@[simp] theorem wrapCursor_pwm : (wrapCursor m s).pwm = s.pwm := rfl
@[simp] theorem wrapCursor_currentStep : (wrapCursor m s).currentStep = BitVec.ofNat 16 (normCursor s.currentStep.toInt (cycleLength m)) := rfl
@[simp] theorem wrapCursor_level : (wrapCursor m s).level = s.level := rfl
@[simp] theorem wrapCursor_duty : (wrapCursor m s).duty = s.duty := rfl
@[simp] theorem wrapCursor_isOutput : (wrapCursor m s).isOutput = s.isOutput := rfl
@[simp] theorem wrapCursor_trace : (wrapCursor m s).trace = s.trace := rfl
@[simp] theorem wrapCursor_stream : (wrapCursor m s).stream = s.stream := rfl
@[simp] theorem wrapCursor_completed : (wrapCursor m s).completed = s.completed := rfl

end wrapCursor

section advance
variable (d : Dir) (index : Nat) (s : State)

@[simp] theorem advance_pinA1 : (advance d index s).pinA1 = s.pinA1 := rfl
@[simp] theorem advance_pinA2 : (advance d index s).pinA2 = s.pinA2 := rfl
@[simp] theorem advance_pinB1 : (advance d index s).pinB1 = s.pinB1 := rfl
@[simp] theorem advance_pinB2 : (advance d index s).pinB2 = s.pinB2 := rfl
@[simp] theorem advance_pwm : (advance d index s).pwm = s.pwm := rfl
@[simp] theorem advance_currentStep : (advance d index s).currentStep = advanced d index := rfl
@[simp] theorem advance_level : (advance d index s).level = s.level := rfl
@[simp] theorem advance_duty : (advance d index s).duty = s.duty := rfl
@[simp] theorem advance_isOutput : (advance d index s).isOutput = s.isOutput := rfl
@[simp] theorem advance_trace : (advance d index s).trace = s.trace := rfl
@[simp] theorem advance_stream : (advance d index s).stream = s.stream := rfl
@[simp] theorem advance_completed : (advance d index s).completed = s.completed := rfl

end advance

section retire
variable (s : State)

@[simp] theorem retire_pinA1 : (retire s).pinA1 = s.pinA1 := rfl
@[simp] theorem retire_pinA2 : (retire s).pinA2 = s.pinA2 := rfl
@[simp] theorem retire_pinB1 : (retire s).pinB1 = s.pinB1 := rfl
@[simp] theorem retire_pinB2 : (retire s).pinB2 = s.pinB2 := rfl
@[simp] theorem retire_pwm : (retire s).pwm = s.pwm := rfl
@[simp] theorem retire_currentStep : (retire s).currentStep = s.currentStep := rfl
@[simp] theorem retire_level : (retire s).level = s.level := rfl
@[simp] theorem retire_duty : (retire s).duty = s.duty := rfl
@[simp] theorem retire_isOutput : (retire s).isOutput = s.isOutput := rfl
@[simp] theorem retire_trace : (retire s).trace = s.trace := rfl
@[simp] theorem retire_stream : (retire s).stream = s.stream.tail := rfl
@[simp] theorem retire_completed : (retire s).completed = s.completed + 1 := rfl

end retire

section placeWord
variable (s : State) (w : Word)

@[simp] theorem placeWord_pinA1 : (placeWord s w).pinA1 = s.pinA1 := rfl
@[simp] theorem placeWord_pinA2 : (placeWord s w).pinA2 = s.pinA2 := rfl
@[simp] theorem placeWord_pinB1 : (placeWord s w).pinB1 = s.pinB1 := rfl
@[simp] theorem placeWord_pinB2 : (placeWord s w).pinB2 = s.pinB2 := rfl
@[simp] theorem placeWord_pwm : (placeWord s w).pwm = s.pwm := rfl
@[simp] theorem placeWord_currentStep : (placeWord s w).currentStep = s.currentStep := rfl
@[simp] theorem placeWord_level : (placeWord s w).level = s.level := rfl
@[simp] theorem placeWord_duty : (placeWord s w).duty = s.duty := rfl
@[simp] theorem placeWord_isOutput : (placeWord s w).isOutput = s.isOutput := rfl
@[simp] theorem placeWord_trace : (placeWord s w).trace = s.trace := rfl
@[simp] theorem placeWord_stream : (placeWord s w).stream = ⟨w, false⟩ :: s.stream.tail := rfl
@[simp] theorem placeWord_completed : (placeWord s w).completed = s.completed := rfl

end placeWord

section emit
variable (s : State) (e : Event)

@[simp] theorem emit_pinA1 : (emit s e).pinA1 = s.pinA1 := by cases e <;> rfl
@[simp] theorem emit_pinA2 : (emit s e).pinA2 = s.pinA2 := by cases e <;> rfl
@[simp] theorem emit_pinB1 : (emit s e).pinB1 = s.pinB1 := by cases e <;> rfl
@[simp] theorem emit_pinB2 : (emit s e).pinB2 = s.pinB2 := by cases e <;> rfl
@[simp] theorem emit_pwm : (emit s e).pwm = s.pwm := by cases e <;> rfl
@[simp] theorem emit_currentStep : (emit s e).currentStep = s.currentStep := by cases e <;> rfl
@[simp] theorem emit_stream : (emit s e).stream = s.stream := by cases e <;> rfl
@[simp] theorem emit_completed : (emit s e).completed = s.completed := by cases e <;> rfl
@[simp] theorem emit_trace : (emit s e).trace = s.trace ++ [e] := rfl

@[simp] theorem emit_configureOutput_level (p : Pin) :
    (emit s (.configureOutput p)).level = s.level := rfl
@[simp] theorem emit_configureOutput_duty (p : Pin) :
    (emit s (.configureOutput p)).duty = s.duty := rfl
@[simp] theorem emit_configureOutput_isOutput (p : Pin) :
    (emit s (.configureOutput p)).isOutput = writePin s.isOutput p true := rfl
@[simp] theorem emit_assertCoils_level (r : Row) :
    (emit s (.assertCoils r)).level = driveCoils s r := rfl
@[simp] theorem emit_assertCoils_duty (r : Row) :
    (emit s (.assertCoils r)).duty = s.duty := rfl
@[simp] theorem emit_assertCoils_isOutput (r : Row) :
    (emit s (.assertCoils r)).isOutput = s.isOutput := rfl
@[simp] theorem emit_duty_level (p : Pin) (v : Byte) :
    (emit s (.duty p v)).level = s.level := rfl
@[simp] theorem emit_duty_duty (p : Pin) (v : Byte) :
    (emit s (.duty p v)).duty = writePin s.duty p v := rfl
@[simp] theorem emit_duty_isOutput (p : Pin) (v : Byte) :
    (emit s (.duty p v)).isOutput = s.isOutput := rfl
@[simp] theorem emit_delay_level (n : Micros) :
    (emit s (.delay n)).level = s.level := rfl
@[simp] theorem emit_delay_duty (n : Micros) :
    (emit s (.delay n)).duty = s.duty := rfl
@[simp] theorem emit_delay_isOutput (n : Micros) :
    (emit s (.delay n)).isOutput = s.isOutput := rfl

end emit

end Sys2Proof.Machine
end

