-- ==== Sys2Proof/Laws/Pins.lean ====
section
/-! SUPPORT. What the pin bank's two operations do: a read after a write, and the canonical form. -/

namespace Sys2Proof.Machine

variable {α : Type}

theorem readPin_writePin_same (m : PinMap α) (p : Pin) (v : α) : readPin (writePin m p v) p = some v := by
  induction m with
  | nil => simp [writePin, readPin]
  | cons x rest ih =>
    obtain ⟨q, u⟩ := x
    simp only [writePin]
    split
    · simp [readPin]
    · split
      · simp [readPin]
      · rename_i _ hne
        simp [readPin, ih, Ne.symm hne]

theorem readPin_writePin_other (m : PinMap α) {p q : Pin} (v : α) (h : q ≠ p) :
    readPin (writePin m p v) q = readPin m q := by
  have hne : p.toNat ≠ q.toNat := fun e => h (BitVec.eq_of_toNat_eq e.symm)
  induction m with
  | nil => simp [writePin, readPin, hne]
  | cons x rest ih =>
    obtain ⟨k, u⟩ := x
    simp only [writePin]
    split
    · simp [readPin, hne]
    · split
      · rename_i _ he
        simp [readPin, hne, ← he]
      · simp [readPin, ih]

/-- A read after a write, in one equation. -/
theorem readPin_writePin (m : PinMap α) (p q : Pin) (v : α) :
    readPin (writePin m p v) q = if q = p then some v else readPin m q := by
  split
  · subst q; exact readPin_writePin_same m p v
  · exact readPin_writePin_other m v ‹_›

theorem writePin_keys (m : PinMap α) (p : Pin) (v : α) :
    ∀ x ∈ writePin m p v, x.1 = p.toNat ∨ ∃ y ∈ m, y.1 = x.1 := by
  induction m with
  | nil => intro x hx; simp [writePin] at hx; simp [hx]
  | cons y rest ih =>
    obtain ⟨q, u⟩ := y
    intro x hx
    simp only [writePin] at hx
    split at hx
    · rcases List.mem_cons.mp hx with rfl | hx
      · exact .inl rfl
      · exact .inr ⟨x, hx, rfl⟩
    · split at hx
      · rcases List.mem_cons.mp hx with rfl | hx
        · exact .inl rfl
        · exact .inr ⟨x, List.mem_cons_of_mem _ hx, rfl⟩
      · rcases List.mem_cons.mp hx with rfl | hx
        · exact .inr ⟨_, List.mem_cons_self, rfl⟩
        · rcases ih x hx with h | ⟨y, hy, hk⟩
          · exact .inl h
          · exact .inr ⟨y, List.mem_cons_of_mem _ hy, hk⟩

theorem PinMap.wf_nil : PinMap.Wf ([] : PinMap α) := ⟨.nil, by simp⟩

/-- Latching a value keeps the canonical form. -/
theorem writePin_wf {m : PinMap α} (h : PinMap.Wf m) (p : Pin) (v : α) : PinMap.Wf (writePin m p v) := by
  obtain ⟨hp, hb⟩ := h
  refine ⟨?_, fun x hx => ?_⟩
  · clear hb
    induction m with
    | nil => simp [writePin]
    | cons y rest ih =>
      obtain ⟨q, u⟩ := y
      obtain ⟨hq, hr⟩ := List.pairwise_cons.mp hp
      simp only [writePin]
      split
      · rename_i hlt
        refine List.pairwise_cons.mpr ⟨fun x hx => ?_, hp⟩
        rcases List.mem_cons.mp hx with rfl | hx
        · exact hlt
        · exact lt_trans hlt (hq x hx)
      · split
        · rename_i _ he
          exact List.pairwise_cons.mpr ⟨fun x hx => by have := hq x hx; simp only [he]; exact this, hr⟩
        · rename_i h1 h2
          refine List.pairwise_cons.mpr ⟨fun x hx => ?_, ih hr⟩
          rcases writePin_keys rest p v x hx with hk | ⟨y, hy, hk⟩
          · simp only [hk]; omega
          · rw [← hk]; exact hq y hy
  · rcases writePin_keys m p v x hx with hk | ⟨y, hy, hk⟩
    · rw [hk]; exact p.isLt
    · rw [← hk]; exact hb y hy

/-- What a pin reads after a row is asserted (R32). -/
theorem readPin_driveCoils (s : State) (r : Row) (q : Pin) :
    readPin (driveCoils s r) q =
      if q = s.pinB2 then some r.b2 else if q = s.pinA2 then some r.a2
      else if q = s.pinB1 then some r.b1 else if q = s.pinA1 then some r.a1 else readPin s.level q := by
  simp only [driveCoils, readPin_writePin]

theorem driveCoils_wf {s : State} (h : PinMap.Wf s.level) (r : Row) : PinMap.Wf (driveCoils s r) :=
  writePin_wf (writePin_wf (writePin_wf (writePin_wf h _ _) _ _) _ _) _ _

end Sys2Proof.Machine
end

