-- ==== Sys2Proof/Laws/Ops.lean ====
section
/-! SUPPORT. What each shared operation can do, said once: emitting events, reading the tables, the wrap, and the three
phases of a STEP command. -/

namespace Sys2Proof.Machine

section emitAll
variable (s : State) (es : List Event)

@[simp] theorem emitAll_nil : emitAll s [] = s := rfl
@[simp] theorem emitAll_cons (e : Event) : emitAll s (e :: es) = emitAll (emit s e) es := rfl

theorem emitAll_append (fs : List Event) : emitAll s (es ++ fs) = emitAll (emitAll s es) fs := by
  induction es generalizing s with
  | nil => rfl
  | cons e es ih => simp [ih]

@[simp] theorem emitAll_trace : (emitAll s es).trace = s.trace ++ es := by
  induction es generalizing s with
  | nil => simp
  | cons e es ih => simp [ih]

@[simp] theorem emitAll_pinA1 : (emitAll s es).pinA1 = s.pinA1 := by
  induction es generalizing s with | nil => rfl | cons e es ih => simp [ih]
@[simp] theorem emitAll_pinA2 : (emitAll s es).pinA2 = s.pinA2 := by
  induction es generalizing s with | nil => rfl | cons e es ih => simp [ih]
@[simp] theorem emitAll_pinB1 : (emitAll s es).pinB1 = s.pinB1 := by
  induction es generalizing s with | nil => rfl | cons e es ih => simp [ih]
@[simp] theorem emitAll_pinB2 : (emitAll s es).pinB2 = s.pinB2 := by
  induction es generalizing s with | nil => rfl | cons e es ih => simp [ih]
@[simp] theorem emitAll_pwm : (emitAll s es).pwm = s.pwm := by
  induction es generalizing s with | nil => rfl | cons e es ih => simp [ih]
@[simp] theorem emitAll_currentStep : (emitAll s es).currentStep = s.currentStep := by
  induction es generalizing s with | nil => rfl | cons e es ih => simp [ih]
@[simp] theorem emitAll_stream : (emitAll s es).stream = s.stream := by
  induction es generalizing s with | nil => rfl | cons e es ih => simp [ih]
@[simp] theorem emitAll_completed : (emitAll s es).completed = s.completed := by
  induction es generalizing s with | nil => rfl | cons e es ih => simp [ih]

end emitAll

theorem cycleLength_bounds (m : Mode) : 0 < cycleLength m ∧ cycleLength m ≤ 8 := by
  cases m <;> decide

/-- The wrapped cursor is an index below the cycle length (R101). -/
theorem normCursor_lt (c : Int) {len : Nat} (h : 0 < len) : normCursor c len < len := by
  unfold normCursor; split
  · exact h
  · split <;> omega

/-- The index a mode body runs at is the normalised cursor (R29, R101). -/
theorem wrapCursor_index (m : Mode) (s : State) :
    (wrapCursor m s).currentStep.toNat = normCursor s.currentStep.toInt (cycleLength m) := by
  have h1 := normCursor_lt s.currentStep.toInt (cycleLength_bounds m).1
  have h2 := (cycleLength_bounds m).2
  simp only [wrapCursor_currentStep, BitVec.toNat_ofNat]
  omega

/-- A row below the table's length is read (R58). -/
theorem readRow_of_lt {m : Mode} {k : Nat} (h : k < (stepTable m).length) : readRow m k = .ok (stepTable m)[k] := by
  simp [readRow, h]

/-- An index outside the table raises `ModelInvariantBroken` (R58). -/
theorem readRow_of_ge {m : Mode} {k : Nat} (h : (stepTable m).length ≤ k) :
    readRow m k = .error (.modelInvariantBroken k) := by
  simp [readRow, h]

/-- A curve index below 32 is read (R64). -/
theorem readCurve_of_lt {c : Coil} {i : Nat} (h : i < 32) : readCurve c i = .ok (curve c i) := by
  simp [readCurve, h]

/-- A STEP command whose body gives events completes: it emits them in the wrapped state and advances (R107). -/
theorem stepCommand_of_ok {m : Mode} {body : Body} {s : State} {es : List Event}
    (h : body (normCursor s.currentStep.toInt (cycleLength m)) (wrapCursor m s) = .ok es) (d : Dir) :
    stepCommand m d body s =
      .next (advance d (normCursor s.currentStep.toInt (cycleLength m)) (emitAll (wrapCursor m s) es)) := by
  simp only [stepCommand, wrapCursor_index, h]

/-- Everything a STEP command can do when it answers a next state (R107). -/
theorem stepCommand_next {m : Mode} {d : Dir} {body : Body} {s t : State} (h : stepCommand m d body s = .next t) :
    ∃ es, body (normCursor s.currentStep.toInt (cycleLength m)) (wrapCursor m s) = .ok es ∧
      t = advance d (normCursor s.currentStep.toInt (cycleLength m)) (emitAll (wrapCursor m s) es) := by
  simp only [stepCommand, wrapCursor_index] at h
  split at h
  · cases h
  · rename_i es he
    exact ⟨es, he, by cases h; rfl⟩

/-- The discrete body gives its events wherever its row exists (R120). -/
theorem discreteBody_of_lt {m : Mode} {k : Nat} (h : k < (stepTable m).length) (hold : Micros) (s : State) :
    discreteBody m hold k s = .ok (ceilingDuties s ++ .assertCoils (stepTable m)[k] :: holdDelay hold) := by
  simp [discreteBody, readRow_of_lt h]

/-- The ramp gives three events per curve index, in order (R141). -/
theorem rampEvents_of_lt (u : PwmUnit) (hold : Micros) {is : List Nat} (h : ∀ i ∈ is, i < 32) :
    rampEvents u hold is = .ok (is.flatMap fun i =>
      [.duty u.pinA (scale (curve .a i) u.pf), .duty u.pinB (scale (curve .b i) u.pf), .delay (rampHold hold)]) := by
  induction is with
  | nil => rfl
  | cons i is ih =>
    have hi := h i List.mem_cons_self
    simp [rampEvents, readCurve_of_lt hi, ih fun j hj => h j (List.mem_cons_of_mem _ hj)]

/-- The ramp points of a full step lie in its window (R141). -/
theorem rampWalk_mem {d : Dir} {k i : Nat} (h : i ∈ rampWalk d k) : 8 * k ≤ i ∧ i ≤ 8 * k + 7 := by
  simp only [rampWalk, List.mem_map, List.mem_range] at h
  obtain ⟨j, hj, rfl⟩ := h
  cases d <;> simp only [rampIndex] <;> omega

end Sys2Proof.Machine
end

