-- ==== Sys2Proof/Laws/Exec.lean ====
section
/-! SUPPORT. What each command answers, in one equation over the shared operations, and what it can do to a state. -/

namespace Sys2Proof.Machine

@[simp] theorem ceilingDuties_wrapCursor (m : Mode) (s : State) : ceilingDuties (wrapCursor m s) = ceilingDuties s := rfl

/-- A discrete command emits its events in the wrapped state and advances (R107, R120). -/
theorem exec_discrete {m : Mode} (hm : m = .single ∨ m = .double ∨ m = .interleave) (d : Dir) (hold : Micros) (s : State) :
    ∃ r, (stepTable m)[normCursor s.currentStep.toInt (cycleLength m)]? = some r ∧
      exec (Instr.ofStep m d hold) s =
        .next (advance d (normCursor s.currentStep.toInt (cycleLength m))
          (emitAll (wrapCursor m s) (ceilingDuties s ++ .assertCoils r :: holdDelay hold))) := by
  have hlen : (stepTable m).length = cycleLength m := by rcases hm with rfl | rfl | rfl <;> rfl
  have hlt := normCursor_lt s.currentStep.toInt (cycleLength_bounds m).1
  have hl : normCursor s.currentStep.toInt (cycleLength m) < (stepTable m).length := by rw [hlen]; exact hlt
  refine ⟨_, List.getElem?_eq_getElem hl, ?_⟩
  have hb := discreteBody_of_lt hl hold (wrapCursor m s)
  rcases hm with rfl | rfl | rfl <;> exact stepCommand_of_ok hb d

/-- The events of the 8 ramp points of a full step, in the order a direction walks them (R141). -/
def rampPoints (u : PwmUnit) (d : Dir) (hold : Micros) (index : Nat) : List Event :=
  (rampWalk d index).flatMap fun i =>
    [.duty u.pinA (scale (curve .a i) u.pf), .duty u.pinB (scale (curve .b i) u.pf), .delay (rampHold hold)]

/-- A MICROSTEP command with PWM emits its row and its ramp points in the wrapped state and advances (R107, R141). -/
theorem exec_microstep {s : State} {u : PwmUnit} (hu : s.pwm = some u) (d : Dir) (hold : Micros) :
    ∃ r, (stepTable .microstep)[normCursor s.currentStep.toInt 4]? = some r ∧
      exec (.stepMicrostep d hold) s =
        .next (advance d (normCursor s.currentStep.toInt 4)
          (emitAll (wrapCursor .microstep s) (.assertCoils r :: rampPoints u d hold (normCursor s.currentStep.toInt 4)))) := by
  have hlt := normCursor_lt s.currentStep.toInt (len := 4) (by decide)
  have hl : normCursor s.currentStep.toInt 4 < (stepTable .microstep).length := hlt
  refine ⟨_, List.getElem?_eq_getElem hl, ?_⟩
  have hw : ∀ i ∈ rampWalk d (normCursor s.currentStep.toInt 4), i < 32 := fun i hi => by
    have := rampWalk_mem hi; omega
  refine stepCommand_of_ok (m := .microstep) ?_ d
  simp only [microstepBody, wrapCursor_pwm, hu]
  rw [show cycleLength .microstep = 4 from rfl, readRow_of_lt hl, rampEvents_of_lt u hold hw]
  rfl

/-- A MICROSTEP command without PWM emits nothing (R140). -/
theorem exec_microstep_noPwm {s : State} (hu : s.pwm = none) (d : Dir) (hold : Micros) :
    exec (.stepMicrostep d hold) s = .next (advance d (normCursor s.currentStep.toInt 4) (wrapCursor .microstep s)) :=
  stepCommand_of_ok (m := .microstep) (es := []) (by simp [microstepBody, hu]) d

/-- A STEP with an unrecognized mode emits nothing (R106). -/
theorem exec_unrecognized {m : Mode} (hm : m = .m0 ∨ m = .m5 ∨ m = .m6 ∨ m = .m7) (d : Dir) (hold : Micros) (s : State) :
    exec (Instr.ofStep m d hold) s = .next (advance d (normCursor s.currentStep.toInt 4) (wrapCursor m s)) := by
  rcases hm with rfl | rfl | rfl | rfl <;> exact stepCommand_of_ok (body := emptyBody hold) (es := []) rfl d

/-- Everything a command can do when it answers a next state: a STEP emits some events in the wrapped state and
advances, and RELEASE emits its one event. -/
theorem exec_next {i : Instr} {s t : State} (h : exec i s = .next t) :
    (∃ m d hold es, i = Instr.ofStep m d hold ∧
      t = advance d (normCursor s.currentStep.toInt (cycleLength m)) (emitAll (wrapCursor m s) es)) ∨
    (i = .release ∧ t = emit s (.assertCoils Row.inactive)) := by
  cases i with
  | stepSingle d hold => obtain ⟨es, -, ht⟩ := stepCommand_next h; exact .inl ⟨.single, d, hold, es, rfl, ht⟩
  | stepDouble d hold => obtain ⟨es, -, ht⟩ := stepCommand_next h; exact .inl ⟨.double, d, hold, es, rfl, ht⟩
  | stepInterleave d hold => obtain ⟨es, -, ht⟩ := stepCommand_next h; exact .inl ⟨.interleave, d, hold, es, rfl, ht⟩
  | stepMicrostep d hold => obtain ⟨es, -, ht⟩ := stepCommand_next h; exact .inl ⟨.microstep, d, hold, es, rfl, ht⟩
  | stepM0 d hold =>
    obtain ⟨es, -, ht⟩ := stepCommand_next (body := emptyBody hold) h
    exact .inl ⟨.m0, d, hold, es, rfl, ht⟩
  | stepM5 d hold =>
    obtain ⟨es, -, ht⟩ := stepCommand_next (body := emptyBody hold) h
    exact .inl ⟨.m5, d, hold, es, rfl, ht⟩
  | stepM6 d hold =>
    obtain ⟨es, -, ht⟩ := stepCommand_next (body := emptyBody hold) h
    exact .inl ⟨.m6, d, hold, es, rfl, ht⟩
  | stepM7 d hold =>
    obtain ⟨es, -, ht⟩ := stepCommand_next (body := emptyBody hold) h
    exact .inl ⟨.m7, d, hold, es, rfl, ht⟩
  | release => cases h; exact .inr ⟨rfl, rfl⟩

/-- Everything a step can do when it answers a next state: it waits, or it runs a decoded command and retires it. -/
theorem step_next {s t : State} (h : step s = .next t) :
    (s.stream = [] ∧ t = s) ∨ ∃ c rest i t', s.stream = c :: rest ∧ decode c.word = .ok i ∧ exec i s = .next t' ∧
      t = retire t' := by
  unfold step issue at h
  split at h
  · rename_i hw
    split at hw
    · exact .inl ⟨‹_›, by cases h; rfl⟩
    · split at hw
      · cases hw
      · split at hw <;> cases hw
  · cases h
  · cases h
  · rename_i i hi
    split at hi
    · cases hi
    · rename_i c rest hs
      split at hi
      · cases hi
      · rename_i _ hd
        split at hi
        · cases hi
        · cases hi
          split at h
          · rename_i t' ht
            exact .inr ⟨c, rest, i, t', hs, hd, ht, by cases h; rfl⟩
          · cases h
          · cases h

end Sys2Proof.Machine
end

