-- ==== Sys2Proof/Laws/PerInstr.lean ====
section
/-! SUPPORT. The family CommandWord: the word of a command selects the row of the opcode map that stands for the
command (spec/30_encoding.md R89), one lemma per constructor. -/

namespace Sys2Proof.Laws.CommandWord

/-- The command's row is in the opcode map, and its word selects that row. -/
def Statement (i : Instr) : Prop :=
  i.opcodeRow ∈ opcodeMap ∧ encode i &&& i.opcodeRow.mask = i.opcodeRow.code

/-- A STEP word under the mask of a STEP row keeps `OP` and `MODE` only. -/
theorem stepWord_masked (m : Mode) (d : Dir) (h : Micros) :
    stepWord m d h &&& 0xF7000000#32 = stepWord m .forward 0 := by
  have e : (0xF7000000#32) = ((0b1111#4 ++ (0#1 ++ (0b111#3 ++ 0#24)) : BitVec (4 + (1 + (3 + 24))))) := by decide
  rw [e]
  show (0b0001#4 ++ (d.bit ++ (m.code ++ h)) : BitVec (4 + (1 + (3 + 24)))) &&& (0b1111#4 ++ (0#1 ++ (0b111#3 ++ 0#24))) = _
  rw [BitVec.and_append, BitVec.and_append, BitVec.and_append, BitVec.and_zero, BitVec.and_zero]
  cases m <;> rfl

theorem stepSingle (d : Dir) (h : Micros) : Statement (.stepSingle d h) :=
  ⟨by simp [opcodeMap, Instr.opcodeRow], (stepWord_masked .single d h).trans rfl⟩

theorem stepDouble (d : Dir) (h : Micros) : Statement (.stepDouble d h) :=
  ⟨by simp [opcodeMap, Instr.opcodeRow], (stepWord_masked .double d h).trans rfl⟩

theorem stepInterleave (d : Dir) (h : Micros) : Statement (.stepInterleave d h) :=
  ⟨by simp [opcodeMap, Instr.opcodeRow], (stepWord_masked .interleave d h).trans rfl⟩

theorem stepMicrostep (d : Dir) (h : Micros) : Statement (.stepMicrostep d h) :=
  ⟨by simp [opcodeMap, Instr.opcodeRow], (stepWord_masked .microstep d h).trans rfl⟩

theorem stepM0 (d : Dir) (h : Micros) : Statement (.stepM0 d h) :=
  ⟨by simp [opcodeMap, Instr.opcodeRow], (stepWord_masked .m0 d h).trans rfl⟩

theorem stepM5 (d : Dir) (h : Micros) : Statement (.stepM5 d h) :=
  ⟨by simp [opcodeMap, Instr.opcodeRow], (stepWord_masked .m5 d h).trans rfl⟩

theorem stepM6 (d : Dir) (h : Micros) : Statement (.stepM6 d h) :=
  ⟨by simp [opcodeMap, Instr.opcodeRow], (stepWord_masked .m6 d h).trans rfl⟩

theorem stepM7 (d : Dir) (h : Micros) : Statement (.stepM7 d h) :=
  ⟨by simp [opcodeMap, Instr.opcodeRow], (stepWord_masked .m7 d h).trans rfl⟩

theorem release : Statement .release := ⟨by simp [opcodeMap, Instr.opcodeRow], by decide⟩

end Sys2Proof.Laws.CommandWord
end

