-- ==== Sys2Proof/Tests/Slice0.lean ====
section
/-! SUPPORT. Tests on fixed values, their expected results from spec/ (the vector or rule is named at each), and for each
statement with hypotheses a witness: a state and operands that meet them. -/

namespace Sys2Proof.Tests

open Sys2Proof.Machine

/-- The reset state with another cursor. -/
def cursorAt (c : Int) : State :=
  { State.reset with currentStep := BitVec.ofInt 16 c }

/-- The configuration of spec/95_test_vectors.md, Program 2: `STEPSEQ-NOPWM`. -/
def plainInputs : Inputs := ⟨8, 9, 10, 11, none⟩

/-- The state of an instance without PWM, with a given cursor. -/
def plainAt (c : Int) : State :=
  { constructed plainInputs with currentStep := BitVec.ofInt 16 c }

/-- What an outcome shows of a command: the events it appended to the trace and the cursor it left. -/
def shown (s : State) (o : Host.Outcome State Fault Refusal) : Option (List Event × Int) :=
  match o with
  | .next t => some (t.trace.drop s.trace.length, t.currentStep.toInt)
  | .fault _ => none
  | .refused _ => none

/-- The next state of an outcome, if it has one. -/
def settled (o : Host.Outcome State Fault Refusal) : Option State :=
  match o with
  | .next t => some t
  | .fault _ => none
  | .refused _ => none

/-- A command executed, as `shown`. -/
def run (i : Instr) (s : State) : Option (List Event × Int) := shown s (exec i s)

/-! ### Well-formedness: an ill-formed term for each check -/

theorem test_duplicate_pin_ill_formed : (⟨2, 3, 3, 5, none⟩ : Inputs).wellFormed = false := by decide
theorem test_pwm_pin_duplicate_ill_formed : (⟨2, 3, 4, 5, some ⟨9, 9, 1⟩⟩ : Inputs).wellFormed = false := by decide
theorem test_reset_inputs_well_formed : Config.resetInputs.wellFormed = true := by decide
theorem test_raw_mode_ill_formed : (AsmMode.raw 8).wellFormed = false := by decide
theorem test_hold_ill_formed : (Asm.step .forward .single (some 16777216)).wellFormed = false := by decide
theorem test_hold_well_formed : (Asm.step .forward (.raw 7) (some 16777215)).wellFormed = true := by decide

/-! ### Decoding: words written out from the encoding rows of R89, and the vectors V-E1 to V-E13 -/

theorem test_decode_single_bits : decode 0b00010001000000000000001111101000 = .ok (.stepSingle .forward 1000) := by decide
theorem test_decode_double_bits : decode 0b00011010000000000000000000000000 = .ok (.stepDouble .backward 0) := by decide
theorem test_decode_interleave_bits : decode 0b00010011000000000000000111110100 = .ok (.stepInterleave .forward 500) := by
  decide
theorem test_decode_microstep_bits : decode 0b00011100000000000000001100100000 = .ok (.stepMicrostep .backward 800) := by
  decide
theorem test_decode_m0_bits : decode 0b00010000000000000000000000000111 = .ok (.stepM0 .forward 7) := by decide
theorem test_decode_m5_bits : decode 0b00010101000000000000000001100100 = .ok (.stepM5 .forward 100) := by decide
theorem test_decode_m6_bits : decode 0b00011110100000000000000000000001 = .ok (.stepM6 .backward 0x800001) := by decide
theorem test_decode_m7_bits : decode 0b00011111111111111111111111111111 = .ok (.stepM7 .backward 16777215) := by decide
theorem test_decode_release_bits : decode 0b00100000000000000000000000000000 = .ok .release := by decide
theorem test_decode_e8 : decode 0x20000001 = .error (.releaseOperand 0x20000001) := by decide
theorem test_decode_e9 : decode 0x28000000 = .error (.releaseOperand 0x28000000) := by decide
theorem test_decode_e10 : decode 0x00000000 = .error (.op 0x00000000) := by decide
theorem test_decode_e11 : decode 0x30000000 = .error (.op 0x30000000) := by decide
theorem test_decode_e12 : decode 0xFFFFFFFF = .error (.op 0xFFFFFFFF) := by decide
theorem test_decode_e13 : decode 0x14FFFFFF = .ok (.stepMicrostep .forward 16777215) := by decide
theorem test_table_word : decodeTableWord 32 0x1A000000 = some (.stepDouble .backward 0) := by decide

/-- R65: the two byte orders of a link. -/
theorem test_link_orders :
    decodeLink .leastFirst [0xE8, 0x03, 0x00, 0x11, 0x20] = .ok (.stepSingle .forward 1000, [0x20]) ∧
      decodeLink .mostFirst [0x11, 0x00, 0x03, 0xE8, 0x20] = .ok (.stepSingle .forward 1000, [0x20]) ∧
      decodeLink .mostFirst [0x11, 0x00, 0x03] = .error .incomplete := by decide

/-- R92: a hold over the limit is an assembly error, and so is a raw mode above 7. -/
theorem test_assembly_errors :
    assembleLine "STEP FORWARD, SINGLE, 16777216".toList = none ∧ assembleLine "STEP FORWARD, #8".toList = none ∧
      assembleLine "STEP SINGLE, FORWARD".toList = none := by decide

/-- R93: a disassembler prints the three-operand form. -/
theorem test_disassembly_text :
    printLine (disassemble (.stepDouble .backward 0)) = "STEP BACKWARD, DOUBLE, 0".toList ∧
      assembleLine (printLine (disassemble (.stepM7 .backward 16777215))) = some 0x1FFFFFFF := by decide

/-! ### Commands: vectors of spec/95_test_vectors.md -/

/-- V-D1 (and the source's scenario S1). -/
theorem test_single_row0 : run (.stepSingle .forward 0) (cursorAt 0) =
    some ([.duty 9 255, .duty 10 255, .assertCoils ⟨true, false, false, false⟩], 1) := by decide
/-- V-D8: no PWM, so no duty, and the delay. -/
theorem test_single_noPwm : run (.stepSingle .forward 1000) (plainAt 0) =
    some ([.assertCoils ⟨true, false, false, false⟩, .delay 1000], 1) := by decide
/-- V-D3. -/
theorem test_double_row3 : run (.stepDouble .backward 1000) (cursorAt 3) =
    some ([.duty 9 255, .duty 10 255, .assertCoils ⟨true, false, false, true⟩, .delay 1000], 2) := by decide
/-- V-C4: -1 wraps to 3. -/
theorem test_double_wraps_below : run (.stepDouble .backward 0) (cursorAt (-1)) =
    some ([.duty 9 255, .duty 10 255, .assertCoils ⟨true, false, false, true⟩], 2) := by decide
/-- V-D5: 8 wraps to 0 under INTERLEAVE, and BACKWARD leaves -1. -/
theorem test_interleave_wraps : run (.stepInterleave .backward 0) (cursorAt 8) =
    some ([.duty 9 255, .duty 10 255, .assertCoils ⟨true, false, false, false⟩], -1) := by decide
/-- V-C9: 4 is in range for INTERLEAVE, row 0010. -/
theorem test_interleave_row4 : run (.stepInterleave .forward 0) (cursorAt 4) =
    some ([.duty 9 255, .duty 10 255, .assertCoils ⟨false, false, true, false⟩], 5) := by decide
/-- V-M1: the row, the first and the last ramp point, 25 events. -/
theorem test_microstep_forward :
    (run (.stepMicrostep .forward 80) (cursorAt 1)).map (fun x => (x.1.take 4, x.1.drop 22, x.1.length, x.2)) =
      some ([.assertCoils ⟨false, true, true, false⟩, .duty 9 0, .duty 10 255, .delay 10],
        [.duty 9 255, .duty 10 0, .delay 10], 25, 2) := by decide
/-- V-M9: without PWM no event; 5 wraps to 0 and BACKWARD leaves -1. -/
theorem test_microstep_noPwm : run (.stepMicrostep .backward 800) (plainAt 5) = some ([], -1) := by decide
/-- V-C11 and the example of R106. -/
theorem test_m0_silent : run (.stepM0 .forward 7) (cursorAt 5) = some ([], 1) := by decide
theorem test_m5_silent : run (.stepM5 .forward 100) (cursorAt 8) = some ([], 1) := by decide
/-- V-C15. -/
theorem test_m6_wraps_below : run (.stepM6 .backward 0) (cursorAt (-1)) = some ([], 2) := by decide
theorem test_m7_backward : run (.stepM7 .backward 16777215) (cursorAt 0) = some ([], -1) := by decide
/-- V-R2: not wrapped. -/
theorem test_release_event : run .release (cursorAt (-1)) =
    some ([.assertCoils ⟨false, false, false, false⟩], -1) := by decide
/-- V-R3: after reset, RELEASE gives the coils a level and leaves the duties UNSET. -/
theorem test_release_after_reset :
    (settled (exec .release State.reset)).map (fun t => (readPin t.level 2, readPin t.duty 9)) =
      some (some false, none) := by decide

/-! ### Reset: vectors V-I1 to V-I6 -/

theorem test_reset_unset : readPin State.reset.level 2 = none ∧ readPin State.reset.duty 9 = none := by decide
/-- V-I2 and V-I3: the power factor is clamped, and `dutyMax` follows. -/
theorem test_clamp : loadPwm ⟨9, 10, 2⟩ = ⟨9, 10, 1, 255⟩ ∧ loadPwm ⟨9, 10, -1⟩ = ⟨9, 10, 0, 0⟩ := by decide
/-- V-I5. -/
theorem test_construct_noPwm : (constructed plainInputs).trace =
    [.configureOutput 8, .configureOutput 9, .configureOutput 10, .configureOutput 11] := by decide
/-- V-I6. -/
theorem test_construct_duplicate : construct ⟨2, 3, 3, 5, some ⟨9, 10, 1⟩⟩ = .refused (.duplicatePin 3) := rfl
/-- V-I4: under the reference `SCALE`, 0.3 gives 76. -/
theorem test_reference_scale : referenceScale 255 (3 / 10) = 76 := by decide +kernel

/-! ### Steps -/

/-- Every row of the opcode table runs as the first command after reset. -/
theorem test_rows_run_after_reset :
    ∀ w ∈ [0x11000000, 0x12000000, 0x13000000, 0x14000000, 0x10000000, 0x15000000, 0x16000000, 0x17000000, 0x20000000],
      (settled (step (State.reset.withFetchWord 32 w))).map (fun t => (t.completed, t.stream)) = some (1, []) := by
  decide

/-- A reserved word stops the run and is recorded, the state kept (R88, R173). -/
theorem test_reserved_word_stops : Verdict.step ⟨placeWord State.reset 0x30000000, none⟩ =
    ⟨placeWord State.reset 0x30000000, some (.refusal (.illegalCommand 0x30000000))⟩ := rfl

/-- An instance that has executed one command and whose host issues RELEASE too early. -/
def overlapping : State := { State.reset with stream := [⟨0x20000000, true⟩], completed := 1 }

theorem test_overlap_faults : step overlapping = .fault (.hostOverlap 0x20000000) := rfl

theorem test_shared_pin : compose [Config.resetInputs, ⟨5, 6, 7, 8, none⟩] = .refused (.sharedPin 5) := rfl

theorem test_codes : faultCode (.hostOverlap 0) = 4 ∧ faultCode (.modelInvariantBroken 0) = 5 ∧
    refusalCode (.illegalCommand 0) = some 1 ∧ refusalCode (.duplicatePin 0) = some 2 ∧
    refusalCode (.sharedPin 0) = some 3 := by decide

/-! ### Witnesses: the hypotheses of the statements can be met -/

theorem witness_EncodeOfDecode : decode 0x1FFFFFFF = .ok (.stepM7 .backward 16777215) := by decide
theorem witness_StepFieldsReadRight : (1, Dir.backward) ∈ [(0, Dir.forward), (1, Dir.backward)] ∧
    (7, Mode.m7) ∈ [(0, Mode.m0), (1, Mode.single), (2, Mode.double), (3, Mode.interleave), (4, Mode.microstep),
      (5, Mode.m5), (6, Mode.m6), (7, Mode.m7)] ∧ 16777215 ≤ 16777215 ∧ 0 ≤ 16777215 := by decide
theorem witness_ReservedWordsAreRefused_op : (placeWord State.reset 0x0FFFFFFF).stream = ⟨0x0FFFFFFF, false⟩ :: [] ∧
    ∃ r, decode 0x0FFFFFFF = .error r := ⟨rfl, .op 0x0FFFFFFF, by decide⟩
theorem witness_ReservedWordsAreRefused_release : (placeWord State.reset 0x20000001).stream = ⟨0x20000001, false⟩ :: [] ∧
    ∃ r, decode 0x20000001 = .error r := ⟨rfl, .releaseOperand 0x20000001, by decide⟩
theorem witness_OpcodeMapGovernsDecoding : (∃ r ∈ opcodeMap, (0x18FFFFFF : Word) &&& r.mask = r.code) ∧
    decode 0x18FFFFFF = .ok (.stepM0 .backward 16777215) := by decide
theorem witness_AssemblerEncodesOrRejects : (1, Dir.backward) ∈ [(0, Dir.forward), (1, Dir.backward)] ∧
    (4, AsmMode.microstep) ∈ [(0, AsmMode.raw 0), (1, .raw 1), (2, .raw 2), (3, .raw 3), (4, .raw 4), (5, .raw 5),
      (6, .raw 6), (7, .raw 7), (1, .single), (2, .double), (3, .interleave), (4, .microstep)] ∧ (7 : Nat) < 8 := by decide
theorem witness_StepRunsIssuedCommand : (placeWord State.reset 0x20000000).stream = ⟨0x20000000, false⟩ :: [] ∧
    decode 0x20000000 = .ok .release := by decide
theorem witness_WaitingChangesNothing : State.reset.stream = [] := rfl
theorem witness_OverlapFaults_busy : overlapping.stream = ⟨0x20000000, true⟩ :: [] ∧ decode 0x20000000 = .ok .release ∧
    overlapping.completed ≠ 0 := by decide
theorem witness_OverlapFaults_first :
    ({ overlapping with completed := 0 } : State).stream = ⟨0x20000000, true⟩ :: [] ∧
    decode 0x20000000 = .ok .release ∧ ({ overlapping with completed := 0 } : State).completed = 0 := by decide
theorem witness_StopIsKept_fault : step overlapping = .fault (.hostOverlap 0x20000000) := rfl
theorem witness_StopIsKept_refusal : step (placeWord State.reset 0) = .refused (.illegalCommand 0) := rfl
theorem witness_ProperStreamRunsToItsEnd :
    ∀ c ∈ ({ State.reset with stream := [⟨0x11000000, false⟩, ⟨0x20000000, false⟩] } : State).stream,
      c.proper = true := by decide
theorem witness_SequenceLaw : assertsRow .interleave State.reset = true ∧ assertsRow .microstep State.reset = true := by
  decide
theorem witness_SymmetryLaw : (cursorAt 3).currentStep.toInt = (cycleLength .single : Int) - 1 ∧
    (cursorAt 7).currentStep.toInt = (cycleLength .interleave : Int) - 1 := by decide
theorem witness_ReversalLaw : Dir.backward ≠ Dir.forward ∧ assertsRow .single (plainAt 0) = true := by decide
theorem witness_ModeChangeLaw : assertsRow .double (plainAt 6) = true := by decide
theorem witness_WrapAtCycleEnds_upper : assertsRow .single (cursorAt 4) = true ∧
    (cursorAt 4).currentStep.toInt = cycleLength .single := by decide
theorem witness_WrapAtCycleEnds_lower : assertsRow .interleave (cursorAt (-1)) = true ∧
    (cursorAt (-1)).currentStep.toInt = -1 := by decide
theorem witness_DiscreteCommandEvents : Mode.interleave ∈ [Mode.single, .double, .interleave] := by decide
theorem witness_DiscreteCommandLatches : Mode.double ∈ [Mode.single, .double, .interleave] ∧ State.reset.pins.Nodup ∧
    State.reset.pwm = some ⟨9, 10, 1, 255⟩ := by decide
theorem witness_DiscreteCommandDelay : Mode.single ∈ [Mode.single, .double, .interleave] := by decide
theorem witness_MicrostepWithoutPwmOnlyMovesCursor : (plainAt 5).hasPwm = false := by decide
theorem witness_MicrostepCommandLatches : State.reset.pins.Nodup ∧ State.reset.pwm = some ⟨9, 10, 1, 255⟩ := by decide
theorem witness_MicrostepDirectionSymmetry : State.reset.pwm = some ⟨9, 10, 1, 255⟩ ∧ (9 : Pin) ≠ 10 := by decide
theorem witness_MicrostepDelays : (cursorAt 8).pwm = some ⟨9, 10, 1, 255⟩ := by decide
theorem witness_MicrostepOpposingRamp : (cursorAt 1).pwm = some ⟨9, 10, 1, 255⟩ ∧ (9 : Pin) ≠ 10 ∧
    wrappedIndex .microstep (cursorAt 1) = 1 ∧ (⟨9, 10, 1, 255⟩ : PwmUnit).pf = 1 := by decide
theorem witness_DutiesInForceAtMicrostepRow : State.reset.pwm = some ⟨9, 10, 1, 255⟩ := by decide
theorem witness_UnrecognizedModesOnlyMoveCursor : Mode.m6 ∈ [Mode.m0, .m5, .m6, .m7] ∧
    (cursorAt 8).currentStep = 8 := by decide
theorem witness_ReleaseDeassertsCoils : (0x20000001 : Word).toNat / 2 ^ 28 = 2 ∧ (0x20000001 : Word).toNat % 2 ^ 28 ≠ 0 := by
  decide
theorem witness_ReleaseFrame : (9 : Pin) ∉ State.reset.coilPins := by decide
theorem witness_StepAfterRelease : assertsRow .single State.reset = true ∧ assertsRow .interleave State.reset = true := by
  decide
theorem witness_StepCommandFrame : (9 : Pin) ∉ State.reset.coilPins ∧ (2 : Pin) ∉ State.reset.pwmPins := by decide
theorem witness_ScaleProperties : (100 : Byte).toNat ≤ (200 : Byte).toNat ∧ (0 : Rat) ≤ 1 := by decide
theorem witness_ReferenceScaleQualifies : (0 : Rat) ≤ 0 ∧ (1 : Rat) ≤ 1 ∧ (0 : Rat) ≤ 1 ∧
    (100 : Byte).toNat ≤ (200 : Byte).toNat := by decide
theorem witness_CurveTablesQualify : 3 < 4 ∧ 8 * 3 ≤ 24 ∧ 24 ≤ 31 ∧ 31 ≤ 8 * 3 + 7 := by decide
theorem witness_WindowOneRises : 8 ≤ 8 ∧ 8 ≤ 15 ∧ 15 ≤ 15 := by decide
theorem witness_StepTablesQualify : (⟨true, false, false, true⟩ : Row) ∈ stepTable .double ∧ 7 < 8 := by decide
theorem witness_NoRowShortsACoil : (⟨true, false, false, true⟩ : Row) ∈ stepTable .interleave := by decide
theorem witness_TableReadsStayInside : (stepTable .single).length ≤ 4 ∧ (stepTable .m0).length ≤ 0 ∧ 31 < 32 ∧
    32 ≤ 32 ∧ Mode.microstep ∈ [Mode.single, .double, .interleave, .microstep] ∧
    31 ∈ rampWalk .backward (wrappedIndex .microstep (cursorAt 3)) := by decide
theorem witness_ConstructionLoadsOrRefuses : Config.resetInputs.pins.Nodup ∧
    ¬(⟨2, 3, 3, 5, none⟩ : Inputs).pins.Nodup := by decide
theorem witness_FirstCommandAfterReset : plainInputs.pins.Nodup := by decide
theorem witness_ConstructionMeetsInvariant : construct plainInputs = .next (constructed plainInputs) := rfl
theorem witness_SharedPinsRefused_shared : Config.resetInputs.pins.Nodup ∧ (⟨5, 6, 7, 8, none⟩ : Inputs).pins.Nodup ∧
    ∃ p, p ∈ Config.resetInputs.pins ∧ p ∈ (⟨5, 6, 7, 8, none⟩ : Inputs).pins := ⟨by decide, by decide, 5, by decide⟩
theorem witness_SharedPinsRefused_distinct : Config.resetInputs.pins.Nodup ∧
    (⟨11, 12, 13, 14, none⟩ : Inputs).pins.Nodup ∧
    ∀ p, p ∈ Config.resetInputs.pins → p ∉ (⟨11, 12, 13, 14, none⟩ : Inputs).pins :=
  ⟨by decide, by decide, by simp [Config.resetInputs, Inputs.pins]⟩
theorem witness_InstancesAreIsolated : platformStep 1 [State.reset, plainAt 0] = .next [State.reset, plainAt 0] := rfl
theorem witness_CommandsReadOnlyConfigAndCursor : SameConfig State.reset { State.reset with duty := [(9, 7)] } ∧
    ({ State.reset with duty := [(9, 7)] } : State).currentStep = State.reset.currentStep :=
  ⟨⟨rfl, rfl, rfl, rfl, rfl⟩, rfl⟩

/-- An instance without PWM, just constructed, whose host's next command is RELEASE. -/
def releasing : State := placeWord (constructed plainInputs) 0x20000000

/-- The state its step leaves. -/
def released : State := retire (emit releasing (.assertCoils Row.inactive))

theorem releasing_steps : step releasing = .next released := rfl

theorem witness_StepKeepsCursorInRange : CursorInRange releasing ∧ step releasing = .next released :=
  ⟨⟨by decide, by decide⟩, rfl⟩
theorem witness_StepKeepsBanksCanonical : BanksCanonical releasing ∧ step releasing = .next released :=
  ⟨⟨by decide, by decide, by decide⟩, rfl⟩
theorem witness_StepKeepsLatchesReplayed : LatchesFollowTrace releasing ∧ step releasing = .next released := ⟨rfl, rfl⟩
theorem witness_StepKeepsCoilsUnshorted : releasing.pins.Nodup ∧ CoilsNotShorted releasing ∧
    step releasing = .next released := ⟨by decide, ⟨by decide, by decide⟩, rfl⟩
theorem witness_StepKeepsWholeInvariant : Inv releasing ∧ step releasing = .next released := by
  refine ⟨⟨by decide, ⟨by decide, by decide⟩, ⟨by decide, by decide, by decide⟩, rfl, ?_, ?_, ?_,
    ⟨by decide, by decide⟩⟩, rfl⟩
  · intro u h; cases h
  · show ∀ p ∈ releasing.pins, readPin releasing.isOutput p = some true
    decide
  · refine ⟨fun p _ => rfl, fun p _ => rfl, fun p h => ?_⟩
    have e : readPin releasing.isOutput p = if p ∈ releasing.pins then some true else none := by
      revert p; decide
    rw [e, if_neg h]
theorem witness_TraceOnlyGrows : step releasing = .next released := rfl
theorem witness_ConfigurationIsReadOnly : step (placeWord State.reset 0x17000000) =
    .next (retire { placeWord State.reset 0x17000000 with currentStep := 1 }) := rfl

end Sys2Proof.Tests
end

section
/-! The curve ROM of spec/20_memory.md, section 3. Every entry is measured by its distance from the level its window starts
at, `curveRise`, which does not decrease along a window whichever way the window ramps. -/

namespace Sys2Proof.Machine

/-- `SCALE` at `pf = 1` is the identity (R142 property S1). -/
@[simp] theorem scale_one (v : Byte) : scale v 1 = v := if_pos (le_refl 1)

/-- R60's value stands where R60 fixes one. -/
theorem curve_of_fixed {c : Coil} {i : Nat} {v : Byte} (h : fixedCurve c i = some v) : curve c i = v := by
  simp only [curve, h]

theorem curveHeight_le (c : Coil) (k j : Nat) : curveHeight c k j ≤ 255 := by
  unfold curveHeight; split <;> omega

/-- An entry R60 leaves free is the height of its ramp point; the duty width loses nothing of it. -/
theorem curve_toNat_of_free {c : Coil} {i : Nat} (h : fixedCurve c i = none) :
    (curve c i).toNat = curveHeight c (i / 8) (i % 8) := by
  have hle := curveHeight_le c (i / 8) (i % 8)
  simp only [curve, h, BitVec.toNat_ofNat]
  omega

theorem fixedCurve_eq_none {c : Coil} {i : Nat} (h8 : i ≠ 8) (h15 : i ≠ 15) : fixedCurve c i = none := by
  cases c <;> simp [fixedCurve, h8, h15]

/-- How far a curve entry is from the level its window starts at: 0 where the coil's curve rises, 255 where it falls. -/
def curveRise (c : Coil) (i : Nat) : Nat :=
  if curveRises c (i / 8) then (curve c i).toNat else 255 - (curve c i).toNat

/-- The fixed entries are the two ends of window 1, for either coil, as that window is case (a) (R62); every other
entry is its free shape within the duty range. -/
theorem curveRise_eq (c : Coil) (i : Nat) :
    curveRise c i =
      if i = 8 then 0 else if i = 15 then 255 else min 255 ((freeCurve c (i / 8)).height (i % 8)) := by
  by_cases h8 : i = 8
  · subst h8; cases c <;> rfl
  by_cases h15 : i = 15
  · subst h15; cases c <;> rfl
  rw [if_neg h8, if_neg h15, curveRise, curve_toNat_of_free (fixedCurve_eq_none h8 h15), curveHeight]
  split <;> omega

/-- Along one window no entry comes back towards the level the window starts at. -/
theorem curveRise_mono (c : Coil) {i j : Nat} (hwin : i / 8 = j / 8) (hij : i ≤ j) : curveRise c i ≤ curveRise c j := by
  have hfree := (freeCurve c (j / 8)).mono (i % 8) (j % 8) (by omega)
  rw [curveRise_eq, curveRise_eq, hwin]
  split_ifs <;> omega

section window
variable {c : Coil} {k i j : Nat} (hi : 8 * k ≤ i) (hij : i ≤ j) (hj : j ≤ 8 * k + 7)
include hi hij hj

/-- The measure does not decrease between two points of window `k`, and both are read in the direction of that window. -/
theorem curveRise_mono_window :
    curveRise c i ≤ curveRise c j ∧ curveRises c (i / 8) = curveRises c k ∧ curveRises c (j / 8) = curveRises c k := by
  have hik : i / 8 = k := by omega
  have hjk : j / 8 = k := by omega
  exact ⟨curveRise_mono c (hik.trans hjk.symm) hij, by rw [hik], by rw [hjk]⟩

/-- A curve does not decrease over a window it rises in. -/
theorem curve_le_of_rises (h : curveRises c k = true) : (curve c i).toNat ≤ (curve c j).toNat := by
  obtain ⟨hmono, hdi, hdj⟩ := curveRise_mono_window (c := c) hi hij hj
  simpa [curveRise, hdi, hdj, h] using hmono

/-- A curve does not increase over a window it falls in. -/
theorem curve_ge_of_falls (h : curveRises c k = false) : (curve c j).toNat ≤ (curve c i).toNat := by
  obtain ⟨hmono, hdi, hdj⟩ := curveRise_mono_window (c := c) hi hij hj
  simp only [curveRise, hdi, hdj, h, Bool.false_eq_true, if_false] at hmono
  have hdom := (curve c j).isLt
  omega

end window

/-- The two coils' curves have opposite directions in every window (R61). -/
theorem curveRises_b (k : Nat) : curveRises .b k = !curveRises .a k := rfl

/-- The four entries R60 fixes. -/
theorem curve_fixed_entries : curve .a 8 = 0 ∧ curve .b 8 = 255 ∧ curve .a 15 = 255 ∧ curve .b 15 = 0 :=
  ⟨curve_of_fixed rfl, curve_of_fixed rfl, curve_of_fixed rfl, curve_of_fixed rfl⟩

/-- Settles O39: R60's entries are read off, and each window is case (a) or case (b) of R61 as `CURVE_A` rises or falls
over it, `CURVE_B` going the other way. -/
theorem curveTablesQualify : Obligations.CurveTablesQualify := by
  obtain ⟨ha8, hb8, ha15, hb15⟩ := curve_fixed_entries
  refine ⟨⟨ha8, hb8, ha15, hb15, fun c i => scale_one (curve c i)⟩, fun k _ => ?_⟩
  cases hdir : curveRises .a k with
  | true =>
    have hb : curveRises .b k = false := by rw [curveRises_b, hdir]; rfl
    exact .inl fun i j hi hij hj => ⟨curve_le_of_rises hi hij hj hdir, curve_ge_of_falls hi hij hj hb⟩
  | false =>
    have hb : curveRises .b k = true := by rw [curveRises_b, hdir]; rfl
    exact .inr fun i j hi hij hj => ⟨curve_ge_of_falls hi hij hj hdir, curve_le_of_rises hi hij hj hb⟩

end Sys2Proof.Machine
end

section
/-! The command word of spec/30_encoding.md, sections 1 to 3. The format is arithmetic: every field of a word is a quotient
and a remainder of its number, and a STEP word is the sum of its placed fields. The decoder, the encoder, the reserved
words and the opcode map are read off from that. -/

namespace Sys2Proof

/-! ### The fields as numbers (R80, R82) -/

section fields
variable (w : Word)

theorem opField_toNat : (opField w).toNat = w.toNat / 2 ^ 28 := by
  have := w.isLt
  simp only [opField, BitVec.extractLsb'_toNat, Nat.shiftRight_eq_div_pow]
  omega

theorem dirField_toNat : (dirField w).toNat = w.toNat / 2 ^ 27 % 2 := by
  simp only [dirField, BitVec.extractLsb'_toNat, Nat.shiftRight_eq_div_pow, pow_one]

theorem modeField_toNat : (modeField w).toNat = w.toNat / 2 ^ 24 % 8 := by
  simp only [modeField, BitVec.extractLsb'_toNat, Nat.shiftRight_eq_div_pow]

theorem holdField_toNat : (holdField w).toNat = w.toNat % 2 ^ 24 := rfl

theorem lowField_toNat : (lowField w).toNat = w.toNat % 2 ^ 28 := rfl

/-- `OP` is 0001 exactly in the words whose quotient by 2^28 is 1. -/
theorem opField_eq_step_iff : opField w = 0b0001#4 ↔ w.toNat / 2 ^ 28 = 1 := by
  rw [BitVec.toNat_eq, opField_toNat]; rfl

/-- `OP` is 0010 exactly in the words whose quotient by 2^28 is 2. -/
theorem opField_eq_release_iff : opField w = 0b0010#4 ↔ w.toNat / 2 ^ 28 = 2 := by
  rw [BitVec.toNat_eq, opField_toNat]; rfl

theorem lowField_eq_zero_iff : lowField w = 0#28 ↔ w.toNat % 2 ^ 28 = 0 := by
  rw [BitVec.toNat_eq, lowField_toNat]; rfl

/-- A mask acts on the opcode by its own opcode bits. -/
theorem opField_and (v : Word) : opField (w &&& v) = opField w &&& opField v := BitVec.extractLsb'_and

end fields

@[simp] theorem Dir.ofBit_bit (d : Dir) : Dir.ofBit d.bit = d := by cases d <;> rfl

@[simp] theorem Dir.bit_ofBit (b : BitVec 1) : (Dir.ofBit b).bit = b := by revert b; decide

@[simp] theorem Mode.ofCode_code (m : Mode) : Mode.ofCode m.code = m := by cases m <;> rfl

@[simp] theorem Mode.code_ofCode (c : BitVec 3) : (Mode.ofCode c).code = c := by revert c; decide

/-! ### STEP words -/

@[simp] theorem encode_ofStep (m : Mode) (d : Dir) (h : Micros) : encode (Instr.ofStep m d h) = stepWord m d h := by
  cases m <;> rfl

section stepWord
variable (m : Mode) (d : Dir) (h : Micros)

/-- A STEP word is the sum of its placed fields (R82, R92). -/
theorem stepWord_toNat :
    (stepWord m d h).toNat = 1 * 2 ^ 28 + d.bit.toNat * 2 ^ 27 + m.code.toNat * 2 ^ 24 + h.toNat := by
  have hh := h.isLt
  have hmode : (m.code ++ h).toNat = m.code.toNat * 2 ^ 24 + h.toNat := by
    rw [BitVec.toNat_append, ← Nat.shiftLeft_add_eq_or_of_lt hh, Nat.shiftLeft_eq]
  have hdir : (d.bit ++ (m.code ++ h)).toNat = d.bit.toNat * 2 ^ 27 + (m.code ++ h).toNat := by
    rw [BitVec.toNat_append, ← Nat.shiftLeft_add_eq_or_of_lt (m.code ++ h).isLt, Nat.shiftLeft_eq]
  rw [stepWord, BitVec.toNat_append, ← Nat.shiftLeft_add_eq_or_of_lt (d.bit ++ (m.code ++ h)).isLt, Nat.shiftLeft_eq,
    hdir, hmode, BitVec.toNat_ofNat]
  omega

@[simp] theorem opField_stepWord : opField (stepWord m d h) = 0b0001#4 := by
  have := h.isLt; have := d.bit.isLt; have := m.code.isLt
  rw [opField_eq_step_iff, stepWord_toNat]; omega

@[simp] theorem dirField_stepWord : dirField (stepWord m d h) = d.bit := by
  have := h.isLt; have := d.bit.isLt; have := m.code.isLt
  rw [BitVec.toNat_eq, dirField_toNat, stepWord_toNat]; omega

@[simp] theorem modeField_stepWord : modeField (stepWord m d h) = m.code := by
  have := h.isLt; have := d.bit.isLt; have := m.code.isLt
  rw [BitVec.toNat_eq, modeField_toNat, stepWord_toNat]; omega

@[simp] theorem holdField_stepWord : holdField (stepWord m d h) = h := by
  have := h.isLt; have := d.bit.isLt; have := m.code.isLt
  rw [BitVec.toNat_eq, holdField_toNat, stepWord_toNat]; omega

end stepWord

/-- A word whose opcode is STEP is the STEP word of its own fields: the format has no other bits (R82). -/
theorem stepWord_fields {w : Word} (h : opField w = 0b0001#4) :
    stepWord (Mode.ofCode (modeField w)) (Dir.ofBit (dirField w)) (holdField w) = w := by
  rw [opField_eq_step_iff] at h
  rw [BitVec.toNat_eq, stepWord_toNat, Dir.bit_ofBit, Mode.code_ofCode, dirField_toNat, modeField_toNat, holdField_toNat]
  omega

/-- There is one RELEASE word (R87). -/
theorem encode_release_eq {w : Word} (hop : opField w = 0b0010#4) (hlow : lowField w = 0#28) : encode .release = w := by
  rw [opField_eq_release_iff] at hop
  rw [lowField_eq_zero_iff] at hlow
  rw [BitVec.toNat_eq, show (encode .release).toNat = 2 * 2 ^ 28 from rfl]
  omega

/-! ### What the decoder answers, by opcode (R90) -/

section decode
variable {w : Word}

theorem decode_of_step (h : opField w = 0b0001#4) :
    decode w = .ok (Instr.ofStep (Mode.ofCode (modeField w)) (Dir.ofBit (dirField w)) (holdField w)) := if_pos h

theorem decode_of_release (hop : opField w = 0b0010#4) (hlow : lowField w = 0#28) : decode w = .ok .release := by
  simp [decode, hop, hlow]

theorem decode_of_release_operand (hop : opField w = 0b0010#4) (hlow : lowField w ≠ 0#28) :
    decode w = .error (.releaseOperand w) := by
  simp [decode, hop, hlow]

theorem decode_of_reserved_op (hstep : opField w ≠ 0b0001#4) (hrelease : opField w ≠ 0b0010#4) :
    decode w = .error (.op w) := by
  simp [decode, hstep, hrelease]

theorem decode_stepWord (m : Mode) (d : Dir) (h : Micros) : decode (stepWord m d h) = .ok (Instr.ofStep m d h) := by
  simp [decode_of_step]

/-- The words that decode: the STEP words and the one RELEASE word. -/
theorem decode_ok_iff :
    (∃ i, decode w = .ok i) ↔ opField w = 0b0001#4 ∨ opField w = 0b0010#4 ∧ lowField w = 0#28 := by
  by_cases hstep : opField w = 0b0001#4
  · simp [decode_of_step hstep, hstep]
  by_cases hrelease : opField w = 0b0010#4
  · by_cases hlow : lowField w = 0#28
    · simp [decode_of_release hrelease hlow, hrelease, hlow]
    · simp [decode_of_release_operand hrelease hlow, hrelease, hlow]
  · simp [decode_of_reserved_op hstep hrelease, hstep, hrelease]

/-- A word is refused exactly when it does not decode: the decoder is total. -/
theorem decode_error_iff : (∃ r, decode w = .error r) ↔ ¬ ∃ i, decode w = .ok i := by
  cases decode w <;> simp

/-- A word that decodes is the word of its command. -/
theorem encode_of_decode {i : Instr} (h : decode w = .ok i) : encode i = w := by
  rcases decode_ok_iff.1 ⟨i, h⟩ with hstep | ⟨hop, hlow⟩
  · cases (decode_of_step hstep).symm.trans h
    rw [encode_ofStep, stepWord_fields hstep]
  · cases (decode_of_release hop hlow).symm.trans h
    exact encode_release_eq hop hlow

end decode

/-! ### The opcode map (R89) -/

/-- Every command's row is in the map, and its word selects that row. -/
theorem encode_selects_opcodeRow (i : Instr) : Laws.CommandWord.Statement i := by
  cases i with
  | stepSingle d h => exact Laws.CommandWord.stepSingle d h
  | stepDouble d h => exact Laws.CommandWord.stepDouble d h
  | stepInterleave d h => exact Laws.CommandWord.stepInterleave d h
  | stepMicrostep d h => exact Laws.CommandWord.stepMicrostep d h
  | stepM0 d h => exact Laws.CommandWord.stepM0 d h
  | stepM5 d h => exact Laws.CommandWord.stepM5 d h
  | stepM6 d h => exact Laws.CommandWord.stepM6 d h
  | stepM7 d h => exact Laws.CommandWord.stepM7 d h
  | release => exact Laws.CommandWord.release

/-- A row fixes `OP` at STEP, or it fixes the whole word at RELEASE's. -/
theorem opcodeMap_fixes_op : ∀ r ∈ opcodeMap,
    opField r.mask = 0b1111#4 ∧ opField r.code = 0b0001#4 ∨ r.mask = BitVec.allOnes 32 ∧ r.code = encode .release := by
  decide

/-- Two rows that agree on the bits both masks fix are one row: the rows do not overlap. -/
theorem opcodeMap_rows_differ : ∀ r ∈ opcodeMap, ∀ r' ∈ opcodeMap, r.code &&& r'.mask = r'.code &&& r.mask → r = r' := by
  decide

/-- A word that selects a row decodes. -/
theorem decode_of_selects {w : Word} {r : OpcodeRow} (hr : r ∈ opcodeMap) (h : w &&& r.mask = r.code) :
    ∃ i, decode w = .ok i := by
  rcases opcodeMap_fixes_op r hr with ⟨hmask, hcode⟩ | ⟨hmask, hcode⟩
  · have hop : opField w = opField r.code := by
      rw [← h, opField_and, hmask]; exact BitVec.and_allOnes.symm
    exact ⟨_, decode_of_step (hop.trans hcode)⟩
  · have hw : w = encode .release := by rw [← hcode, ← h, hmask, BitVec.and_allOnes]
    exact ⟨.release, hw ▸ rfl⟩

/-- No word selects two rows. -/
theorem selected_row_unique {w : Word} {r r' : OpcodeRow} (hr : r ∈ opcodeMap) (hr' : r' ∈ opcodeMap)
    (h : w &&& r.mask = r.code) (h' : w &&& r'.mask = r'.code) : r = r' := by
  refine opcodeMap_rows_differ r hr r' hr' ?_
  rw [← h, ← h', BitVec.and_assoc, BitVec.and_assoc, BitVec.and_comm r.mask]

end Sys2Proof

namespace Sys2Proof.Machine

/-! ### A reserved word in a run (R88, R173) -/

/-- The next command's word is refused when it is reserved, before anything else about the command is looked at. -/
theorem step_of_reserved {s : State} {c : HostCommand} {rest : List HostCommand} {r : Reserved}
    (hs : s.stream = c :: rest) (hd : decode c.word = .error r) : step s = .refused (.illegalCommand c.word) := by
  simp only [step, issue, hs, hd]

/-- A refusal ends a run: it is recorded, and the state is kept. -/
theorem verdictStep_of_refused {s : State} {r : Refusal} (h : step s = .refused r) :
    Verdict.step ⟨s, none⟩ = ⟨s, some (.refusal r)⟩ := by
  simp only [Verdict.step, h]

/-- Settles O3: each listed number is its direction's bit or its mode's code, so the sum is the STEP word of the listed
operands. -/
theorem stepFieldsReadRight : Obligations.StepFieldsReadRight := by
  have hdirs : ∀ y ∈ [(0, Dir.forward), (1, Dir.backward)], y.1 = y.2.bit.toNat := by decide
  have hmodes : ∀ x ∈ [(0, Mode.m0), (1, Mode.single), (2, Mode.double), (3, Mode.interleave), (4, Mode.microstep),
      (5, Mode.m5), (6, Mode.m6), (7, Mode.m7)], x.1 = x.2.code.toNat := by decide
  intro y hy x hx n hn
  have hhold : (BitVec.ofNat 24 n).toNat = n := Nat.mod_eq_of_lt (by omega)
  have hword := stepWord_toNat x.2 y.2 (BitVec.ofNat 24 n)
  rw [← hdirs y hy, ← hmodes x hx, hhold] at hword
  refine ⟨BitVec.ofNat 24 n, hhold, ?_⟩
  rw [← hword, BitVec.ofNat_toNat, BitVec.setWidth_eq, decode_stepWord]

/-- Settles O4: the reserved words are the complement of the words that decode, and `issue` decodes before it looks at
anything else. -/
theorem reservedWordsAreRefused : Obligations.ReservedWordsAreRefused := by
  refine fun w => ⟨?_, ?_⟩
  · rw [decode_error_iff, decode_ok_iff, opField_eq_step_iff, opField_eq_release_iff, lowField_eq_zero_iff]
    omega
  · rintro s o rest hs ⟨r, hd⟩
    have hstep := step_of_reserved hs hd
    exact ⟨hstep, verdictStep_of_refused hstep⟩

/-- Settles O5: a word that decodes is its command's word, which selects the command's row; a row's mask and code fix
the opcode, so a word that selects one decodes; and two rows differ on the bits both masks fix. -/
theorem opcodeMapGovernsDecoding : Obligations.OpcodeMapGovernsDecoding := by
  refine ⟨rfl, fun w => ?_⟩
  have hrow : ∀ i, decode w = .ok i → i.opcodeRow ∈ opcodeMap ∧ w &&& i.opcodeRow.mask = i.opcodeRow.code :=
    fun i hi => encode_of_decode hi ▸ encode_selects_opcodeRow i
  refine ⟨⟨?_, ?_⟩, fun i hi => (hrow i hi).2, fun r hr r' hr' => selected_row_unique hr hr'⟩
  · rintro ⟨i, hi⟩
    exact ⟨i.opcodeRow, hrow i hi⟩
  · rintro ⟨r, hr, h⟩
    exact decode_of_selects hr h

end Sys2Proof.Machine
end

section
/-! The STEP command of spec/40_step_common.md in every mode at once: it completes, moves the cursor by the wrap and the
advance, and, in a mode that asserts rows, asserts the one row at the wrapped index. -/

namespace Sys2Proof.Machine

/-! ### The rows in the events of a mode body -/

@[simp] theorem rowsIn_append (es fs : List Event) : rowsIn (es ++ fs) = rowsIn es ++ rowsIn fs :=
  List.filterMap_append

@[simp] theorem rowsIn_assertCoils_cons (r : Row) (es : List Event) :
    rowsIn (.assertCoils r :: es) = r :: rowsIn es := rfl

@[simp] theorem rowsIn_ceilingDuties (s : State) : rowsIn (ceilingDuties s) = [] := by
  unfold ceilingDuties; split <;> rfl

@[simp] theorem rowsIn_holdDelay (hold : Micros) : rowsIn (holdDelay hold) = [] := by
  unfold holdDelay; split <;> rfl

/-- A ramp point's events are two duties and a pause (R141). -/
@[simp] theorem rowsIn_rampPoints (u : PwmUnit) (d : Dir) (hold : Micros) (index : Nat) :
    rowsIn (rampPoints u d hold index) = [] := by
  simp [rowsIn, rampPoints, List.filterMap_flatMap]

/-! ### The cursor (R100, R101, R104) -/

/-- The cycle length in R100's form. -/
theorem cycleLength_cast (m : Mode) : (cycleLength m : Int) = if m = .interleave then 8 else 4 := by cases m <;> rfl

/-- The wrap in R101's form. -/
theorem wrappedIndex_cast (m : Mode) (s : State) :
    (wrappedIndex m s : Int) = if (cycleLength m : Int) ≤ s.currentStep.toInt then 0
      else if s.currentStep.toInt < 0 then (cycleLength m : Int) - 1 else s.currentStep.toInt := by
  have hpos := (cycleLength_bounds m).1
  unfold wrappedIndex normCursor
  split_ifs <;> omega

theorem wrappedIndex_lt (m : Mode) (s : State) : wrappedIndex m s < cycleLength m :=
  normCursor_lt _ (cycleLength_bounds m).1

/-- One row on in R104's form. -/
theorem add_dirSign (p : Int) (d : Dir) : p + dirSign d = if d = .forward then p + 1 else p - 1 := by cases d <;> rfl

/-- From an index inside a cycle the advance does not overflow the register (R104). -/
theorem advanced_toInt {index : Nat} (h : index < 8) (d : Dir) : (advanced d index).toInt = index + dirSign d := by
  cases d <;> exact BitVec.toInt_ofInt_eq_self (by decide) (by omega) (by omega)

/-! ### The command -/

/-- The modes by the body they run (R103). -/
theorem mode_kinds (m : Mode) : (m = .single ∨ m = .double ∨ m = .interleave) ∨ m = .microstep ∨
    (m = .m0 ∨ m = .m5 ∨ m = .m6 ∨ m = .m7) := by
  cases m <;> simp

/-- What every STEP command does (R107): it emits some events in the wrapped state and advances, and the rows among
the events, where the mode asserts rows, are the one at the wrapped index. -/
theorem exec_ofStep (m : Mode) (d : Dir) (hold : Micros) (s : State) :
    ∃ es, exec (Instr.ofStep m d hold) s =
        .next (advance d (wrappedIndex m s) (emitAll (wrapCursor m s) es)) ∧
      (assertsRow m s = true → (rowsIn es).map some = [(stepTable m)[wrappedIndex m s]?]) := by
  rcases mode_kinds m with hm | rfl | hm
  · obtain ⟨r, hr, he⟩ := exec_discrete hm d hold s
    exact ⟨_, he, fun _ => by simp [wrappedIndex, hr]⟩
  · cases hu : s.pwm with
    | none => exact ⟨[], exec_microstep_noPwm hu d hold, by simp [assertsRow, isDiscrete, State.hasPwm, hu]⟩
    | some u =>
      obtain ⟨r, hr, he⟩ := exec_microstep hu d hold
      exact ⟨_, he, fun _ => by simp [wrappedIndex, cycleLength, hr]⟩
  · have he := exec_unrecognized hm d hold s
    rcases hm with rfl | rfl | rfl | rfl <;> exact ⟨[], he, by simp [assertsRow, isDiscrete]⟩

/-- A STEP in a mode that asserts rows appends exactly one row, the one at the wrapped index (R103). -/
theorem ofStep_asserts_wrapped_row {m : Mode} {s : State} (hrow : assertsRow m s = true) (d : Dir) (hold : Micros) :
    Completes (exec (Instr.ofStep m d hold) s) fun t =>
      ∃ es, t.trace = s.trace ++ es ∧ (rowsIn es).map some = [(stepTable m)[wrappedIndex m s]?] := by
  obtain ⟨es, he, hrows⟩ := exec_ofStep m d hold s
  exact ⟨_, he, es, by simp, hrows hrow⟩

/-- Settles O15: the cursor a STEP leaves is the advance of the wrapped index, which lies inside the cycle. -/
theorem stepWrapsThenAdvances : Obligations.StepWrapsThenAdvances := by
  intro m d h s
  obtain ⟨es, he, -⟩ := exec_ofStep m d h s
  have hlt : wrappedIndex m s < 8 := (wrappedIndex_lt m s).trans_le (cycleLength_bounds m).2
  have hwrap := wrappedIndex_cast m s
  rw [cycleLength_cast] at hwrap
  refine ⟨_, he, ?_⟩
  dsimp only
  rw [advance_currentStep, advanced_toInt hlt, add_dirSign, ← hwrap]
  refine ⟨rfl, ?_⟩
  split <;> omega

/-- Settles O20: the wrap takes `L` to index 0 and -1 to index `L - 1` before the row is read. -/
theorem wrapAtCycleEnds : Obligations.WrapAtCycleEnds := by
  intro m h s hrow
  have hwrap := wrappedIndex_cast m s
  constructor
  · intro hc
    have hidx : wrappedIndex m s = 0 := by omega
    exact hidx ▸ ofStep_asserts_wrapped_row hrow .forward h
  · intro hc
    have hidx : wrappedIndex m s = cycleLength m - 1 := by omega
    exact hidx ▸ ofStep_asserts_wrapped_row hrow .backward h

end Sys2Proof.Machine
end

section
/-! The discrete commands of spec/41_step_discrete.md: the trace one appends (R120) and the delay it asks for (R124). -/

namespace Sys2Proof.Machine

/-! ### The parts of the discrete body -/

/-- The hold is unsigned, so R120's guard `hold > 0` fails at zero alone. -/
theorem holdDelay_eq (hold : Micros) : holdDelay hold = if hold = 0 then [] else [.delay hold] := by
  by_cases h : hold = 0
  · subst h; rfl
  · have hpos : 0 < hold.toNat := by bv_omega
    rw [holdDelay, if_pos hpos, if_neg h]

@[simp] theorem delaysIn_append (es fs : List Event) : delaysIn (es ++ fs) = delaysIn es ++ delaysIn fs :=
  List.filterMap_append

@[simp] theorem delaysIn_assertCoils_cons (r : Row) (es : List Event) : delaysIn (.assertCoils r :: es) = delaysIn es :=
  rfl

@[simp] theorem delaysIn_ceilingDuties (s : State) : delaysIn (ceilingDuties s) = [] := by
  unfold ceilingDuties; split <;> rfl

@[simp] theorem delaysIn_holdDelay (hold : Micros) :
    delaysIn (holdDelay hold) = if 0 < hold.toNat then [hold.toNat] else [] := by
  unfold holdDelay; split <;> rfl

/-! ### The command -/

/-- A discrete command appends the ceiling duties, the row at the wrapped index, and the hold (R120). -/
theorem discrete_appends {m : Mode} (hm : m = .single ∨ m = .double ∨ m = .interleave) (d : Dir) (hold : Micros)
    (s : State) :
    Completes (exec (Instr.ofStep m d hold) s) fun t =>
      ∃ r, (stepTable m)[wrappedIndex m s]? = some r ∧
        t.trace = s.trace ++ (ceilingDuties s ++ .assertCoils r :: holdDelay hold) := by
  obtain ⟨r, hr, he⟩ := exec_discrete hm d hold s
  exact ⟨_, he, r, hr, by simp⟩

/-- Settles O21: the events a discrete command appends, with the ceiling duties written out by whether there is PWM and
the hold by whether it is zero. -/
theorem discreteCommandEvents : Obligations.DiscreteCommandEvents := by
  intro m hm d h s
  obtain ⟨t, he, r, hr, htrace⟩ := discrete_appends (by simpa using hm) d h s
  refine ⟨t, he, r, hr, ?_⟩
  rw [htrace, holdDelay_eq, ceilingDuties]
  cases s.pwm <;> simp

/-- Settles O23: of the events a discrete command appends, only the hold's is a delay. -/
theorem discreteCommandDelay : Obligations.DiscreteCommandDelay := by
  intro m hm d h s
  obtain ⟨t, he, r, -, htrace⟩ := discrete_appends (by simpa using hm) d h s
  exact ⟨t, he, _, htrace, by simp⟩

end Sys2Proof.Machine
end

section
/-! The MICROSTEP command of spec/42_step_microstep.md: the events one appends (R141), and none without PWM (R140). -/

namespace Sys2Proof.Machine

/-- The curve index of a ramp point in R141's form. -/
theorem rampIndex_eq (d : Dir) (index k : Nat) :
    rampIndex d index k = if d = .forward then 8 * index + k else 8 * index + 7 - k := by
  cases d <;> rfl

/-- The ramp points one after another, as R141's loop over `k` emits them. -/
theorem rampPoints_eq_flatMap_range (u : PwmUnit) (d : Dir) (hold : Micros) (index : Nat) :
    rampPoints u d hold index = (List.range 8).flatMap fun k =>
      [.duty u.pinA (scale (curve .a (rampIndex d index k)) u.pf),
        .duty u.pinB (scale (curve .b (rampIndex d index k)) u.pf), .delay (rampHold hold)] := by
  simp only [rampPoints, rampWalk, List.flatMap_map]

/-- A MICROSTEP command with PWM appends the row at the wrapped index and then the ramp points (R141). -/
theorem microstep_appends {s : State} {u : PwmUnit} (hu : s.pwm = some u) (d : Dir) (hold : Micros) :
    Completes (exec (.stepMicrostep d hold) s) fun t =>
      ∃ r, (stepTable .microstep)[wrappedIndex .microstep s]? = some r ∧
        t.trace = s.trace ++ .assertCoils r :: rampPoints u d hold (wrappedIndex .microstep s) := by
  obtain ⟨r, hr, he⟩ := exec_microstep hu d hold
  exact ⟨_, he, r, hr, by simp [wrappedIndex, cycleLength]⟩

/-- A MICROSTEP command without PWM appends no event (R140). -/
theorem microstep_noPwm_appends_nothing {s : State} (hu : s.pwm = none) (d : Dir) (hold : Micros) :
    Completes (exec (.stepMicrostep d hold) s) fun t => t.trace = s.trace :=
  ⟨_, exec_microstep_noPwm hu d hold, by simp⟩

/-- Settles O24: by whether there is PWM; with it, the ramp points are R141's loop, whose index each direction gives. -/
theorem microstepCommandEvents : Obligations.MicrostepCommandEvents := by
  intro d h s
  cases hu : s.pwm with
  | none => exact microstep_noPwm_appends_nothing hu d h
  | some u =>
    obtain ⟨t, he, r, hr, htrace⟩ := microstep_appends hu d h
    refine ⟨t, he, r, _, hr, htrace, ?_⟩
    simp only [rampPoints_eq_flatMap_range, rampIndex_eq, rampHold]

end Sys2Proof.Machine
end

section
/-! The RELEASE command of spec/43_release.md: its one word, the coil levels it leaves, and its frame. -/

namespace Sys2Proof

/-- RELEASE has one word (R87, R160). -/
theorem decode_eq_release_iff {w : Word} : decode w = .ok .release ↔ w = encode .release :=
  ⟨fun h => (encode_of_decode h).symm, fun h => h ▸ rfl⟩

end Sys2Proof

namespace Sys2Proof.Machine

/-! ### The pins an asserted row drives (R30, R32) -/

/-- Asserting a row drives the coil pins only. -/
theorem readPin_driveCoils_of_notMem {s : State} {p : Pin} (h : p ∉ s.coilPins) (r : Row) :
    readPin (driveCoils s r) p = readPin s.level p := by
  simp only [State.coilPins, List.mem_cons, List.not_mem_nil, or_false, not_or] at h
  obtain ⟨hA1, hA2, hB1, hB2⟩ := h
  rw [readPin_driveCoils, if_neg hB2, if_neg hA2, if_neg hB1, if_neg hA1]

/-- The inactive row leaves all four coil pins at 0, whatever they held and even where they coincide: its columns are
equal, so no drive undoes another. -/
theorem coilsHold_emit_inactive (s : State) : coilsHold (emit s (.assertCoils Row.inactive)) Row.inactive := by
  simp [coilsHold, Row.inactive, readPin_driveCoils]

/-! ### The command -/

/-- RELEASE emits the inactive row and does nothing else (R160). -/
theorem exec_release (s : State) : exec .release s = .next (emit s (.assertCoils Row.inactive)) := rfl

/-- Asserting a row neither reads nor writes the cursor. -/
theorem emit_assertCoils_setCursor (s : State) (r : Row) (c : Cursor) :
    emit { s with currentStep := c } (.assertCoils r) = { emit s (.assertCoils r) with currentStep := c } := rfl

/-- Settles O33: the one RELEASE word is its encoding, any other word with its opcode has an operand bit set, and the
command emits the inactive row. -/
theorem releaseDeassertsCoils : Obligations.ReleaseDeassertsCoils := by
  refine ⟨fun w => decode_eq_release_iff, fun w hop hlow => ?_, fun s => ?_⟩
  · rw [← opField_eq_release_iff] at hop
    rw [Ne, ← lowField_eq_zero_iff] at hlow
    exact ⟨_, decode_of_release_operand hop hlow⟩
  · exact ⟨_, exec_release s, emit_trace s _, coilsHold_emit_inactive s, emit_currentStep s _⟩

/-- Settles O34: RELEASE is one coil event, which commutes with setting the cursor and drives the coil pins only. -/
theorem releaseFrame : Obligations.ReleaseFrame := by
  refine fun s => ⟨_, exec_release s, emit_currentStep s _, fun c => ?_, emit_assertCoils_duty s _,
    emit_assertCoils_isOutput s _, ?_, emit_stream s _, emit_completed s _,
    fun p hp => readPin_driveCoils_of_notMem hp _, [.assertCoils Row.inactive], emit_trace s _, rfl, fun p => rfl⟩
  · rw [exec_release, emit_assertCoils_setCursor]
  · exact ⟨emit_pinA1 s _, emit_pinA2 s _, emit_pinB1 s _, emit_pinB2 s _, emit_pwm s _⟩

end Sys2Proof.Machine
end

section
/-! Reset from any configuration, spec/70_reset_and_hazards.md R200 and R201: the pin check, and what the construction of an
accepted configuration leaves. -/

namespace Sys2Proof.Machine

/-! ### The pin check (R21, R201) -/

/-- The pin check passes exactly the lists of distinct pins. -/
theorem firstDuplicate_eq_none_iff {ps : List Pin} : firstDuplicate ps = none ↔ ps.Nodup := by
  induction ps with
  | nil => simp [firstDuplicate]
  | cons p rest ih =>
    rw [List.nodup_cons, ← ih, firstDuplicate]
    split <;> simp [*]

/-- The pin the check answers occurs twice. -/
theorem two_le_count_of_firstDuplicate {ps : List Pin} {p : Pin} (h : firstDuplicate ps = some p) : 2 ≤ ps.count p := by
  induction ps with
  | nil => cases h
  | cons q rest ih =>
    rw [firstDuplicate] at h
    split at h
    next hmem =>
      cases h
      have hpos := List.count_pos_iff.2 hmem
      rw [List.count_cons_self]
      omega
    next => exact (ih h).trans List.count_le_count_cons

/-- A configuration of distinct pins is accepted. -/
theorem construct_of_nodup {c : Inputs} (h : c.pins.Nodup) : construct c = .next (constructed c) := by
  simp only [construct, firstDuplicate_eq_none_iff.2 h]

/-- Any other configuration is refused for a pin that occurs twice in it. -/
theorem construct_of_not_nodup {c : Inputs} (h : ¬c.pins.Nodup) :
    ∃ p, 2 ≤ c.pins.count p ∧ construct c = .refused (.duplicatePin p) := by
  obtain ⟨p, hp⟩ := Option.ne_none_iff_exists'.1 (mt firstDuplicate_eq_none_iff.1 h)
  exact ⟨p, two_le_count_of_firstDuplicate hp, by simp only [construct, hp]⟩

/-! ### Configuring pins as outputs -/

section configureAll
variable (s : State) (ps : List Pin)

@[simp] theorem emitAll_configureOutput_level : (emitAll s (ps.map .configureOutput)).level = s.level := by
  induction ps generalizing s with
  | nil => rfl
  | cons p ps ih => simp [ih]

@[simp] theorem emitAll_configureOutput_duty : (emitAll s (ps.map .configureOutput)).duty = s.duty := by
  induction ps generalizing s with
  | nil => rfl
  | cons p ps ih => simp [ih]

/-- The configured pins are outputs, and every other pin is what it was (R32). -/
theorem readPin_isOutput_emitAll_configureOutput (q : Pin) :
    readPin (emitAll s (ps.map .configureOutput)).isOutput q =
      if q ∈ ps then some true else readPin s.isOutput q := by
  induction ps generalizing s with
  | nil => simp
  | cons p ps ih =>
    rw [List.map_cons, emitAll_cons, ih, emit_configureOutput_isOutput, readPin_writePin]
    by_cases hps : q ∈ ps <;> simp [hps]

end configureAll

/-! ### What an accepted configuration leaves (R201) -/

/-- The clamp of the power factor in R24's form. -/
theorem clampUnit_eq (q : Rat) : clampUnit q = if q < 0 then 0 else if 1 < q then 1 else q := rfl

/-- Exactly the configuration's pins are outputs (R35). -/
theorem readPin_isOutput_constructed (c : Inputs) (p : Pin) :
    readPin (constructed c).isOutput p = if p ∈ c.pins then some true else none :=
  readPin_isOutput_emitAll_configureOutput (latchInputs c) c.pins p

/-- Reset appends one event per pin and nothing else. -/
theorem constructed_trace (c : Inputs) : (constructed c).trace = c.pins.map .configureOutput :=
  emitAll_trace (latchInputs c) _

/-- Settles O45: the pin check separates the two clauses; an accepted configuration's registers are loaded before reset's
events, which write only `isOutput` and the trace. -/
theorem constructionLoadsOrRefuses : Obligations.ConstructionLoadsOrRefuses := by
  refine fun c => ⟨fun h => ⟨_, construct_of_nodup h, ?_⟩, construct_of_not_nodup⟩
  refine ⟨emitAll_pinA1 _ _, emitAll_pinA2 _ _, emitAll_pinB1 _ _, emitAll_pinB2 _ _, ?_, emitAll_currentStep _ _,
    fun p => ⟨?_, ?_⟩, readPin_isOutput_constructed c, ?_⟩
  · rw [constructed, emitAll_pwm]
    cases hu : c.pwm <;> simp [latchInputs, loadPwm, clampUnit_eq, hu]
  · rw [constructed, emitAll_configureOutput_level]; rfl
  · rw [constructed, emitAll_configureOutput_duty]; rfl
  · rw [constructed_trace]
    cases hu : c.pwm <;> simp [Inputs.pins, hu]

end Sys2Proof.Machine
end

section
/-! The round trips of spec/30_encoding.md: between commands and words (sections 1 to 3), through the assembler (section 4),
and over a byte-wide link (spec/20_memory.md R65). -/

namespace Sys2Proof

/-- Every command is a STEP in some mode or RELEASE (R89). -/
theorem Instr.eq_ofStep_or_release (i : Instr) : (∃ m d h, i = Instr.ofStep m d h) ∨ i = .release := by
  cases i with
  | stepSingle d h => exact .inl ⟨.single, d, h, rfl⟩
  | stepDouble d h => exact .inl ⟨.double, d, h, rfl⟩
  | stepInterleave d h => exact .inl ⟨.interleave, d, h, rfl⟩
  | stepMicrostep d h => exact .inl ⟨.microstep, d, h, rfl⟩
  | stepM0 d h => exact .inl ⟨.m0, d, h, rfl⟩
  | stepM5 d h => exact .inl ⟨.m5, d, h, rfl⟩
  | stepM6 d h => exact .inl ⟨.m6, d, h, rfl⟩
  | stepM7 d h => exact .inl ⟨.m7, d, h, rfl⟩
  | release => exact .inr rfl

/-- Settles O1: a STEP word decodes by its fields, and RELEASE has its one word. -/
theorem decodeOfEncode : Obligations.DecodeOfEncode := by
  intro i
  rcases i.eq_ofStep_or_release with ⟨m, d, h, rfl⟩ | rfl
  · rw [encode_ofStep, decode_stepWord]
  · exact decode_eq_release_iff.2 rfl

/-- Settles O2: a word is the one its own fields give. -/
theorem encodeOfDecode : Obligations.EncodeOfDecode := fun _ _ => encode_of_decode

/-! ### The link (R65, R66, R91) -/

/-- A word is the concatenation of its four bytes, the most significant first. -/
theorem append_bytes (w : Word) :
    w.extractLsb' 24 8 ++ (w.extractLsb' 16 8 ++ (w.extractLsb' 8 8 ++ w.extractLsb' 0 8)) = w := by
  rw [BitVec.extractLsb'_append_extractLsb'_eq_extractLsb' (by decide : 8 = 0 + 8),
    BitVec.extractLsb'_append_extractLsb'_eq_extractLsb' (by decide : 16 = 0 + (8 + 8)),
    BitVec.extractLsb'_append_extractLsb'_eq_extractLsb' (by decide : 24 = 0 + (8 + (8 + 8)))]
  exact BitVec.extractLsb'_eq_self

/-- A link of either order gives back the word whose bytes it was sent, and the later bytes. -/
theorem decodeLink_linkBytes {w : Word} {i : Instr} (h : decode w = .ok i) (o : ByteOrder) (rest : List Byte) :
    decodeLink o (linkBytes o w ++ rest) = .ok (i, rest) := by
  cases o <;> simp only [linkBytes, List.cons_append, List.nil_append, decodeLink, linkWord, append_bytes, h]

/-- Settles O9: the link carries the encoding, which decodes to its command. -/
theorem linkCarriesCommands : Obligations.LinkCarriesCommands :=
  fun o i rest => decodeLink_linkBytes (decodeOfEncode i) o rest

end Sys2Proof

namespace Sys2Proof.Machine

/-! ### The assembler (R92, R93) -/

/-- The STEP word of a hold in range, as R92 computes it. -/
theorem stepWord_eq_ofNat (m : Mode) (d : Dir) {n : Nat} (hn : n ≤ 16777215) :
    stepWord m d (BitVec.ofNat 24 n) =
      BitVec.ofNat 32 (1 * 2 ^ 28 + d.bit.toNat * 2 ^ 27 + m.code.toNat * 2 ^ 24 + n) := by
  have hword := stepWord_toNat m d (BitVec.ofNat 24 n)
  rw [BitVec.toNat_ofNat, Nat.mod_eq_of_lt (by omega)] at hword
  rw [← hword, BitVec.ofNat_toNat, BitVec.setWidth_eq]

section assemble
variable {m : AsmMode} (d : Dir)

/-- A STEP line with a legal mode assembles exactly when its hold is in range (R92). -/
theorem assemble_step_hold (hm : m.wellFormed = true) (n : Nat) :
    assemble (.step d m (some n)) =
      if n ≤ 16777215 then some (stepWord (asmModeMeans m) d (BitVec.ofNat 24 n)) else none := by
  simp only [assemble, asmInstr, Asm.wellFormed, hm, Bool.true_and, decide_eq_true_eq, Option.getD_some]
  split <;> simp

/-- The two-operand form means a zero hold (R93). -/
theorem assemble_step_noHold : assemble (.step d m none) = assemble (.step d m (some 0)) := by
  cases hm : m.wellFormed <;> simp [assemble, asmInstr, Asm.wellFormed, hm]

/-- A STEP line with an illegal raw mode is an assembly error (R92). -/
theorem assemble_step_illegal_mode (hm : m.wellFormed = false) (hold : Option Nat) :
    assemble (.step d m hold) = none := by
  cases hold <;> simp [assemble, asmInstr, Asm.wellFormed, hm]

end assemble

@[simp] theorem modeAsm_wellFormed (m : Mode) : (modeAsm m).wellFormed = true := by cases m <;> rfl

@[simp] theorem asmModeMeans_modeAsm (m : Mode) : asmModeMeans (modeAsm m) = m := by cases m <;> rfl

/-- A STEP command is disassembled to the three-operand form (R93). -/
theorem disassemble_ofStep (m : Mode) (d : Dir) (h : Micros) :
    disassemble (Instr.ofStep m d h) = .step d (modeAsm m) (some h.toNat) := by
  cases m <;> rfl

/-- Settles O6: each line is assembled and each word decoded. -/
theorem workedEncodings : Obligations.WorkedEncodings := by
  unfold Obligations.WorkedEncodings
  decide

/-- Settles O7: each listed number is its direction's bit or its mode's code, and a raw mode is legal up to 7. -/
theorem assemblerEncodesOrRejects : Obligations.AssemblerEncodesOrRejects := by
  have hdirs : ∀ y ∈ [(0, Dir.forward), (1, Dir.backward)], y.1 = y.2.bit.toNat := by decide
  have hmodes : ∀ x ∈ [(0, AsmMode.raw 0), (1, .raw 1), (2, .raw 2), (3, .raw 3), (4, .raw 4), (5, .raw 5), (6, .raw 6),
      (7, .raw 7), (1, .single), (2, .double), (3, .interleave), (4, .microstep)],
      x.2.wellFormed = true ∧ x.1 = (asmModeMeans x.2).code.toNat := by decide
  refine fun y hy => ⟨fun x hx => ⟨assemble_step_noHold y.2, fun n => ?_⟩, fun k h hk => ?_⟩
  · obtain ⟨hlegal, hcode⟩ := hmodes x hx
    rw [assemble_step_hold y.2 hlegal, hdirs y hy, hcode]
    split
    next hn => rw [stepWord_eq_ofNat _ _ hn]
    next => rfl
  · have hillegal : (AsmMode.raw k).wellFormed = false := decide_eq_false (by omega)
    exact assemble_step_illegal_mode y.2 hillegal h

/-- Settles O8: a disassembled STEP has a legal mode, which means its own, and a hold in range. -/
theorem disassemblyReassembles : Obligations.DisassemblyReassembles := by
  intro i
  rcases i.eq_ofStep_or_release with ⟨m, d, h, rfl⟩ | rfl
  · have hhold : h.toNat ≤ 16777215 := Nat.le_of_lt_succ h.isLt
    rw [disassemble_ofStep, assemble_step_hold d (modeAsm_wellFormed m), if_pos hhold, asmModeMeans_modeAsm,
      BitVec.ofNat_toNat, BitVec.setWidth_eq, encode_ofStep]
  · rfl

end Sys2Proof.Machine
end

section
/-! The read-only tables of spec/20_memory.md and the duty scaling of spec/42_step_microstep.md R142. -/

namespace Sys2Proof.Machine

/-! ### The step tables (R51 to R58) -/

/-- Settles O41: the rows of the reference instance, table by table. -/
theorem stepTablesQualify : Obligations.StepTablesQualify := by
  refine ⟨by decide, by decide, ⟨rfl, fun k hk => ?_⟩, by decide, rfl, rfl, rfl, rfl⟩
  interval_cases k <;> exact ⟨_, rfl, by decide⟩

/-- Settles O42: by table. -/
theorem noRowShortsACoil : Obligations.NoRowShortsACoil := by
  intro m
  cases m <;> decide

/-- A mode with a table has a row for every index of its cycle (R100). -/
theorem stepTable_length {m : Mode} (hm : m ∈ [Mode.single, .double, .interleave, .microstep]) :
    (stepTable m).length = cycleLength m := by
  revert m; decide

/-- A table read gives a row exactly when the table has it (R58). -/
theorem readRow_eq_ok_iff {m : Mode} {k : Nat} {r : Row} : readRow m k = .ok r ↔ (stepTable m)[k]? = some r := by
  unfold readRow; split <;> simp [*]

/-- A curve index of 32 or more raises `ModelInvariantBroken` (R64). -/
theorem readCurve_of_ge {c : Coil} {i : Nat} (h : 32 ≤ i) : readCurve c i = .error (.modelInvariantBroken i) :=
  if_neg (by omega)

/-- The ramp points of a wrapped index lie inside the curve tables (R64, R141). -/
theorem rampWalk_wrappedIndex_lt {d : Dir} {s : State} {i : Nat} (hi : i ∈ rampWalk d (wrappedIndex .microstep s)) :
    i < 32 := by
  have hlt : wrappedIndex .microstep s < 4 := wrappedIndex_lt .microstep s
  have hmem := rampWalk_mem hi
  omega

/-- Settles O43: each read by whether its index is inside its table, and the indices a command reads are inside. -/
theorem tableReadsStayInside : Obligations.TableReadsStayInside :=
  ⟨fun _ _ => ⟨fun _ => readRow_eq_ok_iff, readRow_of_ge⟩, fun _ _ => ⟨readCurve_of_lt, readCurve_of_ge⟩,
    fun _ => stepTable_length, fun m s => ⟨wrappedIndex_lt m s, fun _ _ => rampWalk_wrappedIndex_lt⟩⟩

/-- Settles O40: window 1 is case (a) of R61 for coil A, and so case (b) for coil B. -/
theorem windowOneRises : Obligations.WindowOneRises :=
  fun _ _ hi hij hj => ⟨curve_le_of_rises (k := 1) hi hij hj rfl, curve_ge_of_falls (k := 1) hi hij hj rfl⟩

/-! ### The open scaling (R142) -/

theorem scale_of_nonpos (v : Byte) {p : Rat} (hp : p ≤ 0) : scale v p = 0 := by
  have hlt : ¬1 ≤ p := by linarith
  simp only [scale, hlt, hp, if_false, if_true]

theorem scale_of_one_le (v : Byte) {p : Rat} (hp : 1 ≤ p) : scale v p = v := if_pos hp

/-- Between the ends a scaled duty is the free scaling limited to the duty it scales. -/
theorem scale_toNat_of_between (v : Byte) {p : Rat} (h0 : 0 < p) (h1 : p < 1) :
    (scale v p).toNat = min (Config.freeScale.apply v.toNat p) v.toNat := by
  have hv := v.isLt
  simp only [scale, not_le.2 h1, not_le.2 h0, if_false, BitVec.toNat_ofNat]
  omega

/-- Property S3: scaling does not raise a duty. -/
theorem scale_toNat_le (v : Byte) (p : Rat) : (scale v p).toNat ≤ v.toNat := by
  rcases le_or_gt p 0 with h0 | h0
  · simp [scale_of_nonpos v h0]
  rcases le_or_gt 1 p with h1 | h1
  · rw [scale_of_one_le v h1]
  · rw [scale_toNat_of_between v h0 h1]; exact Nat.min_le_right _ _

/-- Property S4: scaling does not decrease in the duty or in the power factor. -/
theorem scale_toNat_mono {v w : Byte} {p q : Rat} (hvw : v.toNat ≤ w.toNat) (hpq : p ≤ q) :
    (scale v p).toNat ≤ (scale w q).toNat := by
  rcases le_or_gt p 0 with hp0 | hp0
  · simp [scale_of_nonpos v hp0]
  rcases le_or_gt 1 q with hq1 | hq1
  · rw [scale_of_one_le w hq1]; exact (scale_toNat_le v p).trans hvw
  · rw [scale_toNat_of_between v hp0 (by linarith), scale_toNat_of_between w (by linarith) hq1]
    exact min_le_min (Config.freeScale.mono _ _ _ _ hvw hpq) hvw

/-- Settles O37: the ends by the definition, S3 and S4 by where the power factors lie. -/
theorem scaleProperties : Obligations.ScaleProperties :=
  fun v _ p _ => ⟨scale_one v, scale_of_nonpos v le_rfl, scale_toNat_le v p, scale_toNat_mono⟩

/-! ### The reference scaling (decision D6) -/

/-- At a power factor of at most 1 the product is within the duty it scales. -/
theorem mul_powerFactor_le (v : Byte) {p : Rat} (hp : p ≤ 1) : (v.toNat : Rat) * p ≤ v.toNat :=
  mul_le_of_le_one_right (Nat.cast_nonneg _) hp

/-- At a power factor of at most 1 the 8-bit duty loses nothing of the floor. -/
theorem referenceScale_toNat (v : Byte) {p : Rat} (hp : p ≤ 1) : (referenceScale v p).toNat = ⌊(v.toNat : Rat) * p⌋₊ := by
  have hle : ⌊(v.toNat : Rat) * p⌋₊ ≤ v.toNat := Nat.floor_le_of_le (mul_powerFactor_le v hp)
  have hfloor : ((v.toNat : Rat) * p).floor.toNat = ⌊(v.toNat : Rat) * p⌋₊ := Int.floor_toNat ((v.toNat : Rat) * p)
  rw [referenceScale, BitVec.toNat_ofNat, hfloor]
  exact Nat.mod_eq_of_lt (hle.trans_lt v.isLt)

/-- Settles O38: S1 to S3 by the product at each end, S4 as the product and the floor are monotone. -/
theorem referenceScaleQualifies : Obligations.ReferenceScaleQualifies := by
  refine fun v w p q hp hq => ⟨?_, ?_, fun hp1 => ?_, fun hvw hpq => ?_⟩
  · rw [BitVec.toNat_eq, referenceScale_toNat v le_rfl, mul_one, Nat.floor_natCast]
  · rw [BitVec.toNat_eq, referenceScale_toNat v zero_le_one, mul_zero, Nat.floor_zero]; rfl
  · rw [referenceScale_toNat v hp1]
    exact Nat.floor_le_of_le (mul_powerFactor_le v hp1)
  · rw [referenceScale_toNat v (hpq.trans hq), referenceScale_toNat w hq]
    exact Nat.floor_le_floor (mul_le_mul (Nat.cast_le.2 hvw) hpq hp (Nat.cast_nonneg _))

end Sys2Proof.Machine
end

section
/-! What a command and a step can do, in the form the frame and the invariants need: a command emits events of its own
pins and may then set the cursor, and a step runs one command and retires it. -/

namespace Sys2Proof.Machine

/-! ### The events of a STEP command -/

/-- The events a STEP command emits (R106, R120, R140, R141): none in a mode without a table. -/
def stepEvents (m : Mode) (d : Dir) (hold : Micros) (s : State) : List Event :=
  match (stepTable m)[wrappedIndex m s]? with
  | none => []
  | some r =>
    if m = .microstep then
      match s.pwm with
      | none => []
      | some u => .assertCoils r :: rampPoints u d hold (wrappedIndex m s)
    else ceilingDuties s ++ .assertCoils r :: holdDelay hold

section stepEvents
variable {m : Mode} {s : State} (d : Dir) (hold : Micros)

theorem stepEvents_of_no_row (hr : (stepTable m)[wrappedIndex m s]? = none) : stepEvents m d hold s = [] := by
  simp only [stepEvents, hr]

/-- A discrete mode's events (R120). -/
theorem stepEvents_of_row {r : Row} (hm : m ≠ .microstep) (hr : (stepTable m)[wrappedIndex m s]? = some r) :
    stepEvents m d hold s = ceilingDuties s ++ .assertCoils r :: holdDelay hold := by
  simp only [stepEvents, hr, hm, if_false]

theorem stepEvents_microstep_noPwm (hu : s.pwm = none) : stepEvents .microstep d hold s = [] := by
  simp only [stepEvents, hu, if_true]
  split <;> rfl

/-- MICROSTEP's events where there is PWM (R141). -/
theorem stepEvents_microstep {u : PwmUnit} {r : Row} (hu : s.pwm = some u)
    (hr : (stepTable .microstep)[wrappedIndex .microstep s]? = some r) :
    stepEvents .microstep d hold s = .assertCoils r :: rampPoints u d hold (wrappedIndex .microstep s) := by
  simp only [stepEvents, hr, hu, if_true]

end stepEvents

/-- Emitting an event neither reads nor writes the cursor. -/
theorem emit_setCursor (s : State) (c : Cursor) (e : Event) :
    emit { s with currentStep := c } e = { emit s e with currentStep := c } := by
  cases e <;> rfl

theorem emitAll_setCursor (s : State) (c : Cursor) (es : List Event) :
    emitAll { s with currentStep := c } es = { emitAll s es with currentStep := c } := by
  induction es generalizing s with
  | nil => rfl
  | cons e es ih => rw [emitAll_cons, emit_setCursor, ih, emitAll_cons]

/-- The wrap shows in the index alone: the advance overwrites the cursor it leaves (R101, R104). -/
theorem advance_emitAll_wrapCursor (d : Dir) (k : Nat) (m : Mode) (s : State) (es : List Event) :
    advance d k (emitAll (wrapCursor m s) es) = advance d k (emitAll s es) := by
  rw [wrapCursor, emitAll_setCursor]; rfl

/-- A STEP command emits its events and advances the wrapped index (R107). -/
theorem exec_ofStep_eq (m : Mode) (d : Dir) (hold : Micros) (s : State) :
    exec (Instr.ofStep m d hold) s =
      .next (advance d (wrappedIndex m s) (emitAll s (stepEvents m d hold s))) := by
  rw [← advance_emitAll_wrapCursor d _ m]
  rcases mode_kinds m with hm | rfl | hm
  · obtain ⟨r, hr, he⟩ := exec_discrete hm d hold s
    have hne : m ≠ .microstep := by rcases hm with rfl | rfl | rfl <;> decide
    rw [stepEvents_of_row d hold hne hr]; exact he
  · cases hu : s.pwm with
    | none => rw [stepEvents_microstep_noPwm d hold hu]; exact exec_microstep_noPwm hu d hold
    | some u =>
      obtain ⟨r, hr, he⟩ := exec_microstep hu d hold
      rw [stepEvents_microstep d hold hu hr]; exact he
  · have he := exec_unrecognized hm d hold s
    rcases hm with rfl | rfl | rfl | rfl <;> exact he

/-- What a STEP command emits is settled by the configuration and the raw cursor (R34). -/
theorem stepEvents_congr {s s' : State} (hpwm : s'.pwm = s.pwm) (hcursor : s'.currentStep = s.currentStep) (m : Mode)
    (d : Dir) (hold : Micros) : stepEvents m d hold s' = stepEvents m d hold s := by
  simp only [stepEvents, wrappedIndex, ceilingDuties, hpwm, hcursor]

/-! ### The events of a command are on its own pins -/

/-- An event a command may emit in a state: it configures no output, its row shorts no coil, and its duty is for a PWM
pin (R30, R35, R57). -/
def OwnEvent (s : State) : Event → Prop
  | .configureOutput _ => False
  | .assertCoils r => ¬(r.a1 = true ∧ r.a2 = true) ∧ ¬(r.b1 = true ∧ r.b2 = true)
  | .duty p _ => p ∈ s.pwmPins
  | .delay _ => True

theorem ceilingDuties_own (s : State) : ∀ e ∈ ceilingDuties s, OwnEvent s e := by
  cases hu : s.pwm <;> simp [ceilingDuties, OwnEvent, State.pwmPins, hu]

theorem holdDelay_own (s : State) (hold : Micros) : ∀ e ∈ holdDelay hold, OwnEvent s e := by
  unfold holdDelay; split <;> simp [OwnEvent]

theorem rampPoints_own {s : State} {u : PwmUnit} (hu : s.pwm = some u) (d : Dir) (hold : Micros) (index : Nat) :
    ∀ e ∈ rampPoints u d hold index, OwnEvent s e := by
  intro e he
  obtain ⟨i, -, hi⟩ := List.mem_flatMap.1 he
  simp only [List.mem_cons, List.not_mem_nil, or_false] at hi
  rcases hi with rfl | rfl | rfl <;> simp [OwnEvent, State.pwmPins, hu]

theorem stepEvents_own (m : Mode) (d : Dir) (hold : Micros) (s : State) : ∀ e ∈ stepEvents m d hold s, OwnEvent s e := by
  cases hr : (stepTable m)[wrappedIndex m s]? with
  | none => simp [stepEvents_of_no_row d hold hr]
  | some r =>
    have hrow : OwnEvent s (.assertCoils r) := noRowShortsACoil m r (List.mem_of_getElem? hr)
    by_cases hm : m = .microstep
    · subst hm
      cases hu : s.pwm with
      | none => simp [stepEvents_microstep_noPwm d hold hu]
      | some u =>
        rw [stepEvents_microstep d hold hu hr, List.forall_mem_cons]
        exact ⟨hrow, rampPoints_own hu d hold _⟩
    · rw [stepEvents_of_row d hold hm hr, List.forall_mem_append, List.forall_mem_cons]
      exact ⟨ceilingDuties_own s, hrow, holdDelay_own s hold⟩

theorem inactive_own (s : State) : OwnEvent s (.assertCoils Row.inactive) := by simp [OwnEvent, Row.inactive]

@[simp] theorem emit_coilPins (s : State) (e : Event) : (emit s e).coilPins = s.coilPins := by cases e <;> rfl
@[simp] theorem emit_pwmPins (s : State) (e : Event) : (emit s e).pwmPins = s.pwmPins := by cases e <;> rfl
@[simp] theorem emit_pins (s : State) (e : Event) : (emit s e).pins = s.pins := by cases e <;> rfl

/-- Which events are a command's own depends on the PWM pins, which no event changes. -/
theorem ownEvent_emit {s : State} {e f : Event} : OwnEvent (emit s f) e ↔ OwnEvent s e := by
  cases e <;> simp [OwnEvent]

/-! ### A property that events and the advance keep, commands and steps keep -/

/-- Every command completes, having emitted events of its own, and a STEP then advances (R107, R160, R170). -/
theorem exec_completes (i : Instr) (s : State) :
    ∃ es, (∀ e ∈ es, OwnEvent s e) ∧
      (exec i s = .next (emitAll s es) ∨ ∃ d k, k < 8 ∧ exec i s = .next (advance d k (emitAll s es))) := by
  rcases i.eq_ofStep_or_release with ⟨m, d, h, rfl⟩ | rfl
  · have hlt : wrappedIndex m s < 8 := (wrappedIndex_lt m s).trans_le (cycleLength_bounds m).2
    exact ⟨_, stepEvents_own m d h s, .inr ⟨d, _, hlt, exec_ofStep_eq m d h s⟩⟩
  · exact ⟨[.assertCoils Row.inactive], by simpa using inactive_own s, .inl (exec_release s)⟩

section keeps
variable {P : State → Prop} (hemit : ∀ s e, OwnEvent s e → P s → P (emit s e))
include hemit

theorem emitAll_keeps {s : State} {es : List Event} (hown : ∀ e ∈ es, OwnEvent s e) (hs : P s) : P (emitAll s es) := by
  induction es generalizing s with
  | nil => exact hs
  | cons e es ih =>
    obtain ⟨he, hes⟩ := List.forall_mem_cons.1 hown
    exact ih (fun f hf => ownEvent_emit.2 (hes f hf)) (hemit s e he hs)

variable (hadvance : ∀ s d k, k < 8 → P s → P (advance d k s))
include hadvance

/-- What every own event and every advance keep, every command keeps. -/
theorem exec_keeps {i : Instr} {s t : State} (hs : P s) (h : exec i s = .next t) : P t := by
  obtain ⟨es, hown, he | ⟨d, k, hk, he⟩⟩ := exec_completes i s
  · cases he.symm.trans h
    exact emitAll_keeps hemit hown hs
  · cases he.symm.trans h
    exact hadvance _ d k hk (emitAll_keeps hemit hown hs)

/-- What every own event, every advance and the retirement keep, every step keeps. -/
theorem step_keeps (hretire : ∀ s, P s → P (retire s)) {s t : State} (hs : P s) (h : step s = .next t) : P t := by
  rcases step_next h with ⟨-, rfl⟩ | ⟨c, rest, i, t', -, -, he, rfl⟩
  · exact hs
  · exact hretire _ (exec_keeps hemit hadvance hs he)

end keeps

end Sys2Proof.Machine
end

section
/-! The invariant of a run (spec/10_state.md R20 to R35): every part of it is kept by an event of a command's own, by the
advance and by the retirement, and so by a step; the construction establishes it. -/

namespace Sys2Proof.Machine

/-! ### What an event leaves of each part -/

theorem emit_banksCanonical {s : State} (h : BanksCanonical s) (e : Event) : BanksCanonical (emit s e) := by
  obtain ⟨hlevel, hduty, hout⟩ := h
  cases e with
  | configureOutput p => exact ⟨hlevel, hduty, writePin_wf hout p true⟩
  | assertCoils r => exact ⟨driveCoils_wf hlevel r, hduty, hout⟩
  | duty p v => exact ⟨hlevel, writePin_wf hduty p v, hout⟩
  | delay n => exact ⟨hlevel, hduty, hout⟩

/-- The state with every latch UNSET and nothing emitted, from which `LatchesFollowTrace` replays the trace (R33). -/
def State.unlatched (s : State) : State :=
  { s with level := [], duty := [], isOutput := [], trace := [] }

/-- Replaying one event more is emitting it. -/
theorem emit_latchesFollowTrace {s : State} (h : LatchesFollowTrace s) (e : Event) : LatchesFollowTrace (emit s e) := by
  have hbase : (emit s e).unlatched = s.unlatched := by cases e <;> rfl
  have hreplay : emitAll s.unlatched s.trace = s := h
  show emitAll (emit s e).unlatched (emit s e).trace = emit s e
  rw [hbase, emit_trace, emitAll_append, hreplay]
  rfl

/-- Emitting an event neither reads nor writes the host's stream and the command number. -/
theorem emitAll_setStream (s : State) (cs : List HostCommand) (n : Nat) (es : List Event) :
    emitAll { s with stream := cs, completed := n } es = { emitAll s es with stream := cs, completed := n } := by
  induction es generalizing s with
  | nil => rfl
  | cons e es ih =>
    have he : emit { s with stream := cs, completed := n } e = { emit s e with stream := cs, completed := n } := by
      cases e <;> rfl
    rw [emitAll_cons, he, ih, emitAll_cons]

theorem advance_latchesFollowTrace {s : State} (h : LatchesFollowTrace s) (d : Dir) (k : Nat) :
    LatchesFollowTrace (advance d k s) := by
  have hreplay : emitAll s.unlatched s.trace = s := h
  exact (emitAll_setCursor s.unlatched (advanced d k) s.trace).trans (by rw [hreplay]; rfl)

theorem retire_latchesFollowTrace {s : State} (h : LatchesFollowTrace s) : LatchesFollowTrace (retire s) := by
  have hreplay : emitAll s.unlatched s.trace = s := h
  exact (emitAll_setStream s.unlatched s.stream.tail (s.completed + 1) s.trace).trans (by rw [hreplay]; rfl)

/-- No event changes the level of a pin other than the coil pins (R30). -/
theorem readPin_level_emit {s : State} {p : Pin} (hp : p ∉ s.coilPins) (e : Event) :
    readPin (emit s e).level p = readPin s.level p := by
  cases e with
  | assertCoils r => exact readPin_driveCoils_of_notMem hp r
  | configureOutput p => rfl
  | duty p v => rfl
  | delay n => rfl

/-- No event of a command's own changes the duty of a pin other than the PWM pins (R30). -/
theorem readPin_duty_emit {s : State} {p : Pin} (hp : p ∉ s.pwmPins) {e : Event} (he : OwnEvent s e) :
    readPin (emit s e).duty p = readPin s.duty p := by
  cases e with
  | duty q v => exact readPin_writePin_other s.duty v fun hpq => hp (hpq ▸ he)
  | configureOutput p => rfl
  | assertCoils r => rfl
  | delay n => rfl

/-- No event of a command's own configures an output (R35). -/
theorem isOutput_emit {s : State} {e : Event} (he : OwnEvent s e) : (emit s e).isOutput = s.isOutput := by
  cases e with
  | configureOutput p => exact he.elim
  | assertCoils r => rfl
  | duty p v => rfl
  | delay n => rfl

/-- Where the pins are distinct, an asserted row is what the coil pins hold (R30, R32). -/
theorem coilsHold_emit_assertCoils {s : State} (h : s.pins.Nodup) (r : Row) : coilsHold (emit s (.assertCoils r)) r := by
  have hcoil : s.coilPins.Nodup := h.of_append_left
  simp only [State.coilPins, List.nodup_cons, List.mem_cons, List.not_mem_nil, or_false, not_or] at hcoil
  obtain ⟨⟨h12, h1B1, h1B2⟩, ⟨h2B1, h2B2⟩, hB, -⟩ := hcoil
  simp only [coilsHold, emit_pinA1, emit_pinA2, emit_pinB1, emit_pinB2, emit_assertCoils_level, readPin_driveCoils]
  simp [h12, h1B1, h1B2, h2B2, hB, Ne.symm h2B1]

theorem emit_coilsNotShorted {s : State} (hpins : s.pins.Nodup) (h : CoilsNotShorted s) {e : Event} (he : OwnEvent s e) :
    CoilsNotShorted (emit s e) := by
  cases e with
  | assertCoils r =>
    obtain ⟨ha1, hb1, ha2, hb2⟩ := coilsHold_emit_assertCoils hpins r
    simpa only [CoilsNotShorted, ha1, ha2, hb1, hb2, Option.some.injEq, OwnEvent] using he
  | configureOutput p => exact h
  | duty p v => exact h
  | delay n => exact h

/-! ### The parts, kept by every step -/

/-- Settles O51: the cursor is either kept or the advance of an index below 8. -/
theorem stepKeepsCursorInRange : Obligations.StepKeepsCursorInRange := by
  refine fun s t => step_keeps (P := CursorInRange) (fun s e _ h => ?_) (fun s d k hk _ => ?_) fun _ h => h
  · simpa [CursorInRange] using h
  · rw [CursorInRange, advance_currentStep, advanced_toInt hk]
    cases d <;> simp only [dirSign] <;> omega

/-- Settles O52: every write keeps the canonical form. -/
theorem stepKeepsBanksCanonical : Obligations.StepKeepsBanksCanonical :=
  fun _ _ => step_keeps (P := BanksCanonical) (fun _ e _ h => emit_banksCanonical h e) (fun _ _ _ _ h => h) fun _ h => h

/-- Settles O53: an event is replayed as it was emitted, and the replay depends neither on the cursor nor on the
stream. -/
theorem stepKeepsLatchesReplayed : Obligations.StepKeepsLatchesReplayed :=
  fun _ _ => step_keeps (P := LatchesFollowTrace) (fun _ e _ h => emit_latchesFollowTrace h e)
    (fun _ d k _ h => advance_latchesFollowTrace h d k) fun _ h => retire_latchesFollowTrace h

theorem step_keeps_pins_nodup {s t : State} (hs : s.pins.Nodup) (h : step s = .next t) : t.pins.Nodup :=
  step_keeps (P := fun s => s.pins.Nodup) (fun s e _ h => (emit_pins s e).symm ▸ h) (fun _ _ _ _ h => h)
    (fun _ h => h) hs h

/-- Settles O54: with the pins, which no step changes, distinct, an asserted row is what the coils hold. -/
theorem stepKeepsCoilsUnshorted : Obligations.StepKeepsCoilsUnshorted := fun _ _ hpins hcoils h =>
  (step_keeps (P := fun s => s.pins.Nodup ∧ CoilsNotShorted s)
    (fun s e he ⟨hp, hc⟩ => ⟨(emit_pins s e).symm ▸ hp, emit_coilsNotShorted hp hc he⟩) (fun _ _ _ _ h => h) (fun _ h => h)
    ⟨hpins, hcoils⟩ h).2

theorem step_keeps_pwmHeld {s t : State} (hs : PwmHeld s) (h : step s = .next t) : PwmHeld t :=
  step_keeps (P := PwmHeld) (fun s e _ h => by rwa [PwmHeld, emit_pwm]) (fun _ _ _ _ h => h) (fun _ h => h) hs h

theorem step_keeps_pinsAreOutputs {s t : State} (hs : PinsAreOutputs s) (h : step s = .next t) : PinsAreOutputs t :=
  step_keeps (P := PinsAreOutputs) (fun s e he h => by rwa [PinsAreOutputs, emit_pins, isOutput_emit he])
    (fun _ _ _ _ h => h) (fun _ h => h) hs h

theorem emit_onlyOwnPins {s : State} (h : OnlyOwnPins s) {e : Event} (he : OwnEvent s e) : OnlyOwnPins (emit s e) := by
  obtain ⟨hlevel, hduty, hout⟩ := h
  rw [OnlyOwnPins, emit_coilPins, emit_pwmPins, emit_pins, isOutput_emit he]
  exact ⟨fun p hp => (readPin_level_emit hp e).trans (hlevel p hp),
    fun p hp => (readPin_duty_emit hp he).trans (hduty p hp), hout⟩

theorem step_keeps_onlyOwnPins {s t : State} (hs : OnlyOwnPins s) (h : step s = .next t) : OnlyOwnPins t :=
  step_keeps (P := OnlyOwnPins) (fun _ _ he h => emit_onlyOwnPins h he) (fun _ _ _ _ h => h) (fun _ h => h) hs h

/-- Settles O50: part by part. -/
theorem stepKeepsWholeInvariant : Obligations.StepKeepsWholeInvariant := fun s t hs h => {
  pinsDistinct := step_keeps_pins_nodup hs.pinsDistinct h
  cursor := stepKeepsCursorInRange s t hs.cursor h
  banks := stepKeepsBanksCanonical s t hs.banks h
  replay := stepKeepsLatchesReplayed s t hs.replay h
  pwm := step_keeps_pwmHeld hs.pwm h
  outputs := step_keeps_pinsAreOutputs hs.outputs h
  ownPins := step_keeps_onlyOwnPins hs.ownPins h
  coils := stepKeepsCoilsUnshorted s t hs.pinsDistinct hs.coils h }

/-! ### The construction (R201) -/

theorem clampUnit_mem (q : Rat) : 0 ≤ clampUnit q ∧ clampUnit q ≤ 1 := by
  unfold clampUnit; split_ifs <;> constructor <;> linarith

/-- The power factor is loaded clamped, and the ceiling from it (R24, R25). -/
theorem latchInputs_pwmHeld (c : Inputs) : PwmHeld (latchInputs c) := by
  intro u hu
  obtain ⟨v, -, rfl⟩ := Option.map_eq_some_iff.1 hu
  exact ⟨(clampUnit_mem v.powerFactor).1, (clampUnit_mem v.powerFactor).2, rfl⟩

theorem latchInputs_pins (c : Inputs) : (latchInputs c).pins = c.pins := by
  cases hu : c.pwm <;> simp [State.pins, State.coilPins, State.pwmPins, latchInputs, loadPwm, Inputs.pins, hu]

/-- What every configuration event keeps, reset's events keep. -/
theorem constructed_keeps {P : State → Prop} (hemit : ∀ s p, P s → P (emit s (.configureOutput p))) {c : Inputs}
    (h : P (latchInputs c)) : P (constructed c) := by
  suffices ∀ (ps : List Pin) (s : State), P s → P (emitAll s (ps.map .configureOutput)) from this _ _ h
  intro ps
  induction ps with
  | nil => exact fun _ hs => hs
  | cons p ps ih => exact fun s hs => ih _ (hemit s p hs)

theorem constructed_pins (c : Inputs) : (constructed c).pins = c.pins :=
  constructed_keeps (P := fun s => s.pins = c.pins) (fun s _ h => (emit_pins s _).trans h) (latchInputs_pins c)

@[simp] theorem constructed_currentStep (c : Inputs) : (constructed c).currentStep = 0 := emitAll_currentStep _ _

@[simp] theorem constructed_level (c : Inputs) : (constructed c).level = [] := emitAll_configureOutput_level _ _

@[simp] theorem constructed_duty (c : Inputs) : (constructed c).duty = [] := emitAll_configureOutput_duty _ _

/-- Construction accepts a configuration only of distinct pins, and answers the state it constructs. -/
theorem construct_next {c : Inputs} {s : State} (h : construct c = .next s) : c.pins.Nodup ∧ s = constructed c := by
  by_cases hpins : c.pins.Nodup
  · cases (construct_of_nodup hpins).symm.trans h
    exact ⟨hpins, rfl⟩
  · obtain ⟨p, -, hp⟩ := construct_of_not_nodup hpins
    cases hp.symm.trans h

/-- Settles O49: reset's events keep what the registers and the UNSET latches give, and make exactly the block's pins
outputs. -/
theorem constructionMeetsInvariant : Obligations.ConstructionMeetsInvariant := by
  intro c s h
  obtain ⟨hpins, rfl⟩ := construct_next h
  exact {
    pinsDistinct := (constructed_pins c).symm ▸ hpins
    cursor := by simp [CursorInRange]
    banks := constructed_keeps (P := BanksCanonical) (fun _ _ hs => emit_banksCanonical hs _)
      ⟨PinMap.wf_nil, PinMap.wf_nil, PinMap.wf_nil⟩
    replay := constructed_keeps (P := LatchesFollowTrace) (fun _ _ hs => emit_latchesFollowTrace hs _) rfl
    pwm := constructed_keeps (P := PwmHeld) (fun _ _ hs => hs) (latchInputs_pwmHeld c)
    outputs := fun p hp => by
      rw [constructed_pins] at hp
      rw [readPin_isOutput_constructed, if_pos hp]
    ownPins := ⟨fun p _ => by rw [constructed_level]; rfl, fun p _ => by rw [constructed_duty]; rfl, fun p hp => by
      rw [constructed_pins] at hp
      rw [readPin_isOutput_constructed, if_neg hp]⟩
    coils := by simp [CoilsNotShorted, readPin] }

/-- Settles O46: both sides evaluate to the same state. -/
theorem resetIsConstructed : Obligations.ResetIsConstructed := rfl

/-- Settles O48: the reset state is a construction's. -/
theorem resetMeetsInvariant : Obligations.ResetMeetsInvariant :=
  constructionMeetsInvariant Config.resetInputs State.reset resetIsConstructed

end Sys2Proof.Machine
end

section
/-! The host protocol of spec/60_exceptions.md: what a step does with the next command of the stream, how a run stops and
ends, and what a command may touch. -/

namespace Sys2Proof.Machine

/-! ### Completion and frame of a command (R30, R34, R170) -/

/-- Settles O44: no command's events can fail. -/
theorem everyCommandCompletes : Obligations.EveryCommandCompletes := by
  intro i s
  obtain ⟨es, -, he | ⟨d, k, -, he⟩⟩ := exec_completes i s
  · exact ⟨_, he⟩
  · exact ⟨_, he⟩

/-- A command appends the events it emits, each its own. -/
theorem exec_appends_own (i : Instr) (s : State) :
    Completes (exec i s) fun t => ∃ es, t.trace = s.trace ++ es ∧ ∀ e ∈ es, OwnEvent s e := by
  obtain ⟨es, hown, he | ⟨d, k, -, he⟩⟩ := exec_completes i s
  · exact ⟨_, he, es, emitAll_trace s es, hown⟩
  · exact ⟨_, he, es, emitAll_trace s es, hown⟩

/-- Settles O57: kind of event by kind. -/
theorem commandsEmitOnlyOwnPins : Obligations.CommandsEmitOnlyOwnPins := by
  intro i s
  obtain ⟨t, hexec, es, htrace, hown⟩ := exec_appends_own i s
  refine ⟨t, hexec, es, htrace, fun e he => ?_⟩
  cases e with
  | configureOutput p => exact hown _ he
  | assertCoils r => trivial
  | duty p v => exact hown _ he
  | delay n => trivial

/-- Settles O58: a STEP's events and its wrapped index are settled by the configuration and the raw cursor; RELEASE's one
event is fixed. -/
theorem commandsReadOnlyConfigAndCursor : Obligations.CommandsReadOnlyConfigAndCursor := by
  rintro i s s' ⟨-, -, -, -, hpwm⟩ hcursor
  rcases i.eq_ofStep_or_release with ⟨m, d, h, rfl⟩ | rfl
  · have hindex : wrappedIndex m s' = wrappedIndex m s := by rw [wrappedIndex, hcursor, wrappedIndex]
    refine ⟨_, exec_ofStep_eq m d h s, _, exec_ofStep_eq m d h s', ?_, stepEvents m d h s, ?_, ?_⟩
    · simp only [advance_currentStep, hindex]
    · simp
    · simp [stepEvents_congr hpwm hcursor]
  · exact ⟨_, exec_release s, _, exec_release s', by simpa using hcursor, _, emit_trace s _, emit_trace s' _⟩

section frame
variable {s : State} {es : List Event} {p : Pin}

theorem sameConfig_emitAll (s : State) (es : List Event) : SameConfig s (emitAll s es) := by simp [SameConfig]

theorem readPin_level_emitAll (hp : p ∉ s.coilPins) (es : List Event) :
    readPin (emitAll s es).level p = readPin s.level p := by
  induction es generalizing s with
  | nil => rfl
  | cons e es ih => rw [emitAll_cons, ih (by rwa [emit_coilPins]), readPin_level_emit hp]

theorem isOutput_emitAll (hown : ∀ e ∈ es, OwnEvent s e) : (emitAll s es).isOutput = s.isOutput :=
  emitAll_keeps (P := fun t => t.isOutput = s.isOutput) (fun _ _ he ht => (isOutput_emit he).trans ht) hown rfl

theorem readPin_duty_emitAll_of_notMem (hown : ∀ e ∈ es, OwnEvent s e) (hp : p ∉ s.pwmPins) :
    readPin (emitAll s es).duty p = readPin s.duty p :=
  (emitAll_keeps (P := fun t => p ∉ t.pwmPins ∧ readPin t.duty p = readPin s.duty p)
    (fun t e he ⟨ht, hread⟩ => ⟨by rwa [emit_pwmPins], (readPin_duty_emit ht he).trans hread⟩) hown ⟨hp, rfl⟩).2

end frame

/-- Settles O36: a STEP emits events of its own, and the advance writes the cursor only. -/
theorem stepCommandFrame : Obligations.StepCommandFrame := by
  intro m d h s
  have hown := stepEvents_own m d h s
  exact ⟨_, exec_ofStep_eq m d h s, sameConfig_emitAll s _, isOutput_emitAll hown, emitAll_stream s _,
    emitAll_completed s _,
    fun p hp => readPin_level_emitAll hp _, fun p hp => readPin_duty_emitAll_of_notMem hown hp⟩

/-- No command reads or writes the host's stream or the command number (R34). -/
theorem exec_keeps_stream {i : Instr} {s t : State} (h : exec i s = .next t) :
    t.stream = s.stream ∧ t.completed = s.completed :=
  exec_keeps (P := fun t => t.stream = s.stream ∧ t.completed = s.completed)
    (fun t e _ ht => by rwa [emit_stream, emit_completed]) (fun _ _ _ _ ht => ht) ⟨rfl, rfl⟩ h

/-! ### What a step leaves (R20, R67, R69) -/

/-- Settles O55: an event is appended, and nothing else writes the trace. -/
theorem traceOnlyGrows : Obligations.TraceOnlyGrows := fun s _ =>
  step_keeps (P := fun t => ∃ es, t.trace = s.trace ++ es)
    (fun t e _ ⟨es, ht⟩ => ⟨es ++ [e], by rw [emit_trace, ht, List.append_assoc]⟩) (fun _ _ _ _ ht => ht) (fun _ ht => ht)
    ⟨[], (List.append_nil _).symm⟩

/-- Settles O56: no event, advance or retirement writes a configuration register. -/
theorem configurationIsReadOnly : Obligations.ConfigurationIsReadOnly := fun s _ =>
  step_keeps (P := SameConfig s) (fun t e _ ht => by simpa [SameConfig] using ht) (fun _ _ _ _ ht => ht) (fun _ ht => ht)
    ⟨rfl, rfl, rfl, rfl, rfl⟩

/-! ### The next command of the stream (R172, R181) -/

section issue
variable {s : State} {c : HostCommand} {rest : List HostCommand} {i : Instr} (hs : s.stream = c :: rest)
  (hd : decode c.word = .ok i)
include hs hd

/-- A command that decodes and overlaps no other is executed and retired. -/
theorem step_of_runs (ho : (c.overlaps && s.hasRun) = false) :
    Completes (exec i s) fun t => step s = .next { t with stream := rest, completed := s.completed + 1 } := by
  obtain ⟨t, he⟩ := everyCommandCompletes i s
  obtain ⟨hstream, hcompleted⟩ := exec_keeps_stream he
  have hissue : issue s = .run i := by simp [issue, hs, hd, ho]
  have hstep : step s = .next (retire t) := by simp only [step, hissue, he]
  refine ⟨t, he, hstep.trans ?_⟩
  rw [retire, hstream, hcompleted, hs, List.tail_cons]

/-- A command that overlaps the one before it is a fault that records its word (R181). -/
theorem step_of_overlap (ho : (c.overlaps && s.hasRun) = true) : step s = .fault (.hostOverlap c.word) := by
  simp only [step, issue, hs, hd, ho, if_true]

end issue

/-- Settles O10: a command issued in its turn overlaps no other. -/
theorem stepRunsIssuedCommand : Obligations.StepRunsIssuedCommand := fun _ _ _ _ hs hd => step_of_runs hs hd rfl

/-- Settles O11: with an empty stream nothing is issued. -/
theorem waitingChangesNothing : Obligations.WaitingChangesNothing := by
  intro s hs
  simp only [step, issue, hs]

/-- Settles O12: a command can overlap only where one has run. -/
theorem overlapFaults : Obligations.OverlapFaults := by
  refine fun s w rest i hs hd => ⟨fun hrun => ?_, fun hfirst => ?_⟩
  · exact step_of_overlap hs hd (by simpa [State.hasRun] using hrun)
  · simpa only [hfirst] using step_of_runs hs hd (by simp [State.hasRun, hfirst])

/-! ### A run (R173, R221) -/

theorem verdictStep_of_next {s t : State} (h : step s = .next t) : Verdict.step ⟨s, none⟩ = ⟨t, none⟩ := by
  simp only [Verdict.step, h]

theorem verdictStep_of_fault {s : State} {f : Fault} (h : step s = .fault f) :
    Verdict.step ⟨s, none⟩ = ⟨s, some (.fault f)⟩ := by
  simp only [Verdict.step, h]

/-- A recorded stop is never cleared. -/
theorem verdictRun_of_stopped (n : Nat) (s : State) (x : Stop) : Verdict.run n ⟨s, some x⟩ = ⟨s, some x⟩ := by
  induction n with
  | zero => rfl
  | succ n ih => exact ih

/-- Settles O13: a stop is recorded with the state it leaves, and kept. -/
theorem stopIsKept : Obligations.StopIsKept :=
  ⟨verdictRun_of_stopped, fun _ _ => verdictStep_of_fault, fun _ _ => verdictStep_of_refused⟩

theorem HostCommand.overlaps_and_decodes_of_proper {c : HostCommand} (h : c.proper = true) :
    c.overlaps = false ∧ ∃ i, decode c.word = .ok i := by
  simp only [HostCommand.proper, Bool.and_eq_true, Bool.not_eq_true'] at h
  obtain ⟨ho, hd⟩ := h
  refine ⟨ho, ?_⟩
  cases hw : decode c.word with
  | ok i => exact ⟨i, rfl⟩
  | error r => simp [hw, Except.toOption] at hd

/-- Settles O14: by induction on the stream, whose head runs and leaves its tail. -/
theorem properStreamRunsToItsEnd : Obligations.ProperStreamRunsToItsEnd := by
  intro s hproper
  generalize hs : s.stream = cs at hproper ⊢
  induction cs generalizing s with
  | nil => exact ⟨s, rfl, by simp [Verdict.ended, hs], rfl⟩
  | cons c rest ih =>
    obtain ⟨hc, hrest⟩ := List.forall_mem_cons.1 hproper
    obtain ⟨ho, i, hd⟩ := HostCommand.overlaps_and_decodes_of_proper hc
    obtain ⟨t, -, hstep⟩ := step_of_runs hs hd (by rw [ho, Bool.false_and])
    obtain ⟨u, hrun, hended, hcompleted⟩ := ih { t with stream := rest, completed := s.completed + 1 } rfl hrest
    refine ⟨u, ?_, hended, ?_⟩
    · rw [List.length_cons, Verdict.run, verdictStep_of_next hstep, hrun]
    · rw [hcompleted, List.length_cons]; dsimp only; omega

/-! ### Several instances (R184) -/

/-- Of two configurations, the first shared pin is the first of the one that the other has too. -/
theorem firstShared_pair (c c' : Inputs) : firstShared [c, c'] = c.pins.find? fun p => decide (p ∈ c'.pins) := by
  have hlast : firstShared [c'] = none := by
    rw [firstShared, List.find?_eq_none.2 fun p _ => by simp]
    rfl
  rw [firstShared, hlast]
  simp only [List.any_cons, List.any_nil, Bool.or_false]
  split <;> simp [*]

section pair
variable {c c' : Inputs} (hc : c.pins.Nodup) (hc' : c'.pins.Nodup)
include hc hc'

/-- Neither of two configurations of distinct pins is refused for a duplicate. -/
theorem no_duplicate_pair : [c, c'].findSome? (fun c => firstDuplicate c.pins) = none := by
  simp [firstDuplicate_eq_none_iff.2 hc, firstDuplicate_eq_none_iff.2 hc']

theorem compose_of_shared {p : Pin} (hp : (c.pins.find? fun p => decide (p ∈ c'.pins)) = some p) :
    compose [c, c'] = .refused (.sharedPin p) := by
  simp only [compose, no_duplicate_pair hc hc', firstShared_pair, hp]

theorem compose_of_disjoint (hdisjoint : ∀ p ∈ c.pins, p ∉ c'.pins) :
    compose [c, c'] = .next [constructed c, constructed c'] := by
  have hfind : (c.pins.find? fun p => decide (p ∈ c'.pins)) = none :=
    List.find?_eq_none.2 fun p hp => by simpa using hdisjoint p hp
  simp only [compose, no_duplicate_pair hc hc', firstShared_pair, hfind, List.map_cons, List.map_nil]

end pair

/-- Settles O59: a shared pin is found, and the pin found is shared; distinct pins are accepted. -/
theorem sharedPinsRefused : Obligations.SharedPinsRefused := by
  refine fun c c' hc hc' => ⟨fun ⟨p, hp, hp'⟩ => ?_, fun hdisjoint =>
    ⟨_, compose_of_disjoint hc hc' hdisjoint, _, _, rfl, construct_of_nodup hc, construct_of_nodup hc'⟩⟩
  cases hfind : c.pins.find? fun p => decide (p ∈ c'.pins) with
  | none => exact absurd (decide_eq_true hp') (List.find?_eq_none.1 hfind p hp)
  | some q =>
    have hq : decide (q ∈ c'.pins) = true := List.find?_some (p := fun p => decide (p ∈ c'.pins)) hfind
    exact ⟨q, List.mem_of_find?_eq_some hfind, of_decide_eq_true hq, compose_of_shared hc hc' hfind⟩

/-- What a platform step can do when it answers next states: nothing, or one instance is replaced. -/
theorem platformStep_next {k : Nat} {ss ts : List State} (h : platformStep k ss = .next ts) :
    ts = ss ∨ ∃ t, ts = ss.set k t := by
  unfold platformStep at h
  split at h
  · cases h; exact .inl rfl
  · split at h
    · cases h; exact .inr ⟨_, rfl⟩
    · cases h
    · cases h

/-- Settles O60: the one instance replaced is the one that steps. -/
theorem instancesAreIsolated : Obligations.InstancesAreIsolated := by
  intro k ss ts h
  rcases platformStep_next h with rfl | ⟨t, rfl⟩
  · exact ⟨rfl, fun _ _ => rfl⟩
  · exact ⟨List.length_set, fun j hj => List.getElem?_set_ne (Ne.symm hj)⟩

end Sys2Proof.Machine
end

section
/-! The cursor laws of spec/40_step_common.md, section 2: sequences of STEP commands, the reversal, the change of mode, a
STEP after RELEASE, and the first STEP after reset. Each is a chain of single steps, an index inside the cycle moving one
row on modulo its length. -/

namespace Sys2Proof.Machine

/-! ### One STEP -/

/-- Which modes assert rows is settled by whether there is PWM. -/
theorem assertsRow_congr {s t : State} (h : t.pwm = s.pwm) (m : Mode) : assertsRow m t = assertsRow m s := by
  simp only [assertsRow, State.hasPwm, h]

section rows
variable {m : Mode} {s : State} (d : Dir) (hold : Micros)

/-- The one row among a STEP's events is the one at the wrapped index (R103). -/
theorem rowsIn_stepEvents (hrow : assertsRow m s = true) :
    (rowsIn (stepEvents m d hold s)).map some = [(stepTable m)[wrappedIndex m s]?] := by
  obtain ⟨es, he, hrows⟩ := exec_ofStep m d hold s
  have hes : es = stepEvents m d hold s := by
    have hnext := he.symm.trans (exec_ofStep_eq m d hold s)
    injection hnext with hstate
    simpa using congrArg State.trace hstate
  exact hes ▸ hrows hrow

/-- A mode that asserts no row emits nothing at all (R106, R140). -/
theorem stepEvents_of_no_assert (hrow : assertsRow m s = false) : stepEvents m d hold s = [] := by
  rcases mode_kinds m with hm | rfl | hm
  · rcases hm with rfl | rfl | rfl <;> cases hrow
  · have hu : s.pwm = none := by simpa [assertsRow, isDiscrete, State.hasPwm] using hrow
    exact stepEvents_microstep_noPwm d hold hu
  · exact stepEvents_of_no_row d hold (by rcases hm with rfl | rfl | rfl | rfl <;> rfl)

end rows

/-- A STEP keeps the PWM registers, leaves the cursor one past the wrapped index, and asserts the row there (R101 to
R105). -/
theorem ofStep_moves (m : Mode) (d : Dir) (hold : Micros) (s : State) :
    Completes (exec (Instr.ofStep m d hold) s) fun t =>
      t.pwm = s.pwm ∧ t.currentStep.toInt = wrappedIndex m s + dirSign d ∧
        ∃ es, t.trace = s.trace ++ es ∧
          (assertsRow m s = true → (rowsIn es).map some = [(stepTable m)[wrappedIndex m s]?]) := by
  have hlt : wrappedIndex m s < 8 := (wrappedIndex_lt m s).trans_le (cycleLength_bounds m).2
  exact ⟨_, exec_ofStep_eq m d hold s, emitAll_pwm s _, advanced_toInt hlt d, _, emitAll_trace s _,
    rowsIn_stepEvents d hold⟩

/-- One past an index of the cycle is wrapped to the next index modulo its length (R108). -/
theorem wrappedIndex_of_moved {m : Mode} {d : Dir} {s t : State}
    (h : t.currentStep.toInt = wrappedIndex m s + dirSign d) :
    (wrappedIndex m t : Int) = ((wrappedIndex m s : Int) + dirSign d) % cycleLength m := by
  have hlt := wrappedIndex_lt m s
  have hdir : dirSign d = 1 ∨ dirSign d = -1 := by cases d <;> simp [dirSign]
  rw [wrappedIndex_cast, h]
  split_ifs with hpast hbelow
  · rw [show (wrappedIndex m s : Int) + dirSign d = cycleLength m by omega, Int.emod_self]
  · rw [show (wrappedIndex m s : Int) + dirSign d = -1 by omega, ← Int.add_emod_right, Int.emod_eq_of_lt] <;> omega
  · exact (Int.emod_eq_of_lt (by omega) (by omega)).symm

theorem wrappedIndex_emod (m : Mode) (s : State) : (wrappedIndex m s : Int) % cycleLength m = wrappedIndex m s :=
  Int.emod_eq_of_lt (Int.natCast_nonneg _) (Int.ofNat_lt.2 (wrappedIndex_lt m s))

/-! ### One command after another -/

theorem execAll_cons_of_next {i : Instr} {s t : State} (h : exec i s = .next t) (is : List Instr) :
    execAll (i :: is) s = execAll is t := by
  simp only [execAll, h]

theorem execAll_append_of_next {is : List Instr} {s t : State} (h : execAll is s = .next t) (js : List Instr) :
    execAll (is ++ js) s = execAll js t := by
  induction is generalizing s with
  | nil => cases h; rfl
  | cons i is ih =>
    obtain ⟨u, hu⟩ := everyCommandCompletes i s
    rw [execAll_cons_of_next hu] at h
    rw [List.cons_append, execAll_cons_of_next hu, ih h]

/-! ### The sequence law (R108) -/

/-- The index `j` rows on from index `p`, modulo the cycle length. -/
def rowsOn (m : Mode) (p : Nat) (d : Dir) (j : Nat) : Nat :=
  (((p : Int) + dirSign d * (j : Int)) % cycleLength m).toNat

theorem rowsOn_zero (m : Mode) (d : Dir) (s : State) : rowsOn m (wrappedIndex m s) d 0 = wrappedIndex m s := by
  simp [rowsOn, wrappedIndex_emod]

/-- Rows on from where one STEP leads are one row further on from where it started. -/
theorem rowsOn_of_moved {m : Mode} {d : Dir} {s t : State}
    (h : (wrappedIndex m t : Int) = ((wrappedIndex m s : Int) + dirSign d) % cycleLength m) (j : Nat) :
    ((wrappedIndex m t : Int) + dirSign d * (j : Int)) % cycleLength m =
      ((wrappedIndex m s : Int) + dirSign d * ((j + 1 : Nat) : Int)) % cycleLength m := by
  rw [h, Int.emod_add_emod]
  congr 1
  push_cast
  ring

/-- Steps of one mode and direction move the index by one each and assert the rows they pass. -/
theorem execAll_sequence (m : Mode) (d : Dir) (hs : List Micros) (s : State) :
    Completes (execAll (hs.map (Instr.ofStep m d)) s) fun t =>
      (wrappedIndex m t : Int) = ((wrappedIndex m s : Int) + dirSign d * hs.length) % cycleLength m ∧
      (assertsRow m s = true → ∃ es, t.trace = s.trace ++ es ∧
        (rowsIn es).map some = (List.range hs.length).map fun j => (stepTable m)[rowsOn m (wrappedIndex m s) d j]?) := by
  induction hs generalizing s with
  | nil => exact ⟨s, rfl, by simp [wrappedIndex_emod], fun _ => ⟨[], by simp, rfl⟩⟩
  | cons h hs ih =>
    obtain ⟨t, he, hpwm, hmoved, es, htrace, hrows⟩ := ofStep_moves m d h s
    obtain ⟨u, hall, hindex, hrest⟩ := ih t
    have hnext := rowsOn_of_moved (wrappedIndex_of_moved hmoved)
    refine ⟨u, (execAll_cons_of_next he _).trans hall, hindex.trans (hnext _), fun hrow => ?_⟩
    obtain ⟨fs, hu, hfs⟩ := hrest ((assertsRow_congr hpwm m).trans hrow)
    refine ⟨es ++ fs, by rw [hu, htrace, List.append_assoc], ?_⟩
    rw [rowsIn_append, List.map_append, hrows hrow, hfs, List.length_cons, List.range_succ_eq_map, List.map_cons,
      rowsOn_zero, List.map_map]
    simp only [rowsOn, hnext, List.singleton_append]
    rfl

theorem cycleLength_eq (m : Mode) : cycleLength m = 4 ∨ cycleLength m = 8 := by cases m <;> decide

/-- `L` rows in a row are every row once. -/
theorem rowsOn_perm (m : Mode) (d : Dir) (p : Nat) :
    ((List.range (cycleLength m)).map (rowsOn m p d)).Perm (List.range (cycleLength m)) := by
  have hinj : ∀ i ∈ List.range (cycleLength m), ∀ j ∈ List.range (cycleLength m),
      rowsOn m p d i = rowsOn m p d j → i = j := by
    intro i hi j hj
    rw [List.mem_range] at hi hj
    rcases cycleLength_eq m with hlen | hlen <;> cases d <;> simp only [rowsOn, dirSign, hlen] at * <;> omega
  have hsub : ∀ i ∈ (List.range (cycleLength m)).map (rowsOn m p d), i ∈ List.range (cycleLength m) := by
    intro i hi
    obtain ⟨j, -, rfl⟩ := List.mem_map.1 hi
    have hpos := (cycleLength_bounds m).1
    have hmod := Int.emod_lt_of_pos ((p : Int) + dirSign d * (j : Int)) (Int.natCast_pos.2 hpos)
    rw [List.mem_range, rowsOn]
    omega
  have hnodup := List.Nodup.map_on hinj List.nodup_range
  exact (hnodup.subperm hsub).perm_of_length_le (by simp)

/-- Settles O16: the chain of steps, and the `L` rows one cycle passes. -/
theorem sequenceLaw : Obligations.SequenceLaw :=
  fun m d hs s => ⟨execAll_sequence m d hs s, rowsOn_perm m d (wrappedIndex m s)⟩

/-! ### The symmetry, reversal and mode-change laws (R109 to R111) -/

/-- Settles O17: `N` rows on and `N` rows back cancel modulo the cycle length; from `L - 1` the FORWARD step leaves `L`,
which the BACKWARD step wraps to 0 and leaves at -1. -/
theorem symmetryLaw : Obligations.SymmetryLaw := by
  refine fun m hs s => ⟨?_, fun h h' hend => ?_⟩
  · obtain ⟨t, hforward, ht, -⟩ := execAll_sequence m .forward (hs.map Prod.fst) s
    obtain ⟨u, hbackward, hu, -⟩ := execAll_sequence m .backward (hs.map Prod.snd) t
    rw [List.map_map] at hforward hbackward
    refine ⟨u, (execAll_append_of_next hforward _).trans hbackward, ?_⟩
    rw [ht, Int.emod_add_emod, List.length_map, List.length_map] at hu
    simp only [dirSign, one_mul, neg_mul, add_neg_cancel_right, wrappedIndex_emod] at hu
    exact Int.ofNat_inj.1 hu
  · obtain ⟨t, ht, -, hmoved, -⟩ := ofStep_moves m .forward h s
    obtain ⟨u, hu, -, hback, -⟩ := ofStep_moves m .backward h' t
    have hs := wrappedIndex_cast m s
    have ht' := wrappedIndex_cast m t
    have hu' := wrappedIndex_cast m u
    have hpos := (cycleLength_bounds m).1
    simp only [dirSign] at hmoved hback
    refine ⟨u, by rw [execAll_cons_of_next ht, execAll_cons_of_next hu]; rfl, ?_⟩
    omega

theorem dirSign_of_ne {d d' : Dir} (h : d ≠ d') : dirSign d' = -dirSign d := by
  cases d with
  | forward => cases d' with
    | forward => exact absurd rfl h
    | backward => rfl
  | backward => cases d' with
    | forward => rfl
    | backward => exact absurd rfl h

/-- Settles O18: the first step the other way starts where the old way would have gone on, and one row back from there is
row `p`. -/
theorem reversalLaw : Obligations.ReversalLaw := by
  intro m d d' h1 h2 h3 s hne hrow
  obtain ⟨t, ht, hpt, hmt, es1, htr1, hrows1⟩ := ofStep_moves m d h1 s
  obtain ⟨u, hu, hpu, hmu, es2, htr2, hrows2⟩ := ofStep_moves m d' h2 t
  obtain ⟨v, hv, -, -, es3, htr3, hrows3⟩ := ofStep_moves m d' h3 u
  have hrow2 := (assertsRow_congr hpt m).trans hrow
  have hrow3 := (assertsRow_congr hpu m).trans hrow2
  have hnext := wrappedIndex_of_moved hmt
  have hback : wrappedIndex m u = wrappedIndex m s := by
    have h := wrappedIndex_of_moved hmu
    rw [hnext, Int.emod_add_emod, dirSign_of_ne hne, add_neg_cancel_right, wrappedIndex_emod] at h
    exact Int.ofNat_inj.1 h
  refine ⟨v, by rw [execAll_cons_of_next ht, execAll_cons_of_next hu, execAll_cons_of_next hv]; rfl,
    es1 ++ (es2 ++ es3), by rw [htr3, htr2, htr1]; simp only [List.append_assoc], ?_⟩
  rw [← hnext, Int.toNat_natCast, rowsIn_append, rowsIn_append, List.map_append, List.map_append, hrows1 hrow,
    hrows2 hrow2, hrows3 hrow3, hback]
  rfl

/-- Settles O19: the second STEP wraps the raw cursor under its own cycle length. -/
theorem modeChangeLaw : Obligations.ModeChangeLaw := by
  refine ⟨fun m m' d d' h h' s hrow => ?_, rfl, rfl⟩
  obtain ⟨t, ht, hpwm, -⟩ := ofStep_moves m d h s
  exact ⟨t, ht, ofStep_asserts_wrapped_row ((assertsRow_congr hpwm m').trans hrow) d' h'⟩

/-! ### After RELEASE and after reset (R163, R203) -/

/-- Settles O35: RELEASE keeps the cursor and the PWM registers, and asserts one row of its own between the two. -/
theorem stepAfterRelease : Obligations.StepAfterRelease := by
  intro m m' d d' h h' s hrow hrow'
  obtain ⟨t, ht, hpwm, hmoved, es1, htr1, hrows1⟩ := ofStep_moves m d h s
  have hrelease := exec_release t
  obtain ⟨u, hu, es2, htr2, hrows2⟩ :=
    ofStep_asserts_wrapped_row (s := emit t (.assertCoils Row.inactive)) ((assertsRow_congr hpwm m').trans hrow') d' h'
  refine ⟨_, by rw [execAll_cons_of_next ht, execAll_cons_of_next hrelease]; rfl, u, hu, ⟨es2, htr2, hrows2⟩, ?_⟩
  rintro rfl
  have hindex : (wrappedIndex m' (emit t (.assertCoils Row.inactive)) : Int) = _ := wrappedIndex_of_moved hmoved
  refine ⟨es1 ++ .assertCoils Row.inactive :: es2, by rw [htr2, emit_trace, htr1]; simp, ?_⟩
  rw [← hindex, Int.toNat_natCast, rowsIn_append, rowsIn_assertCoils_cons, List.map_append, List.map_cons, hrows1 hrow,
    hrows2]
  rfl

/-- A constructed instance asserts rows in every mode but the unrecognized ones, and MICROSTEP where it has no PWM. -/
theorem assertsRow_constructed (m : Mode) (c : Inputs) :
    assertsRow m (constructed c) = !(isUnrecognized m || (decide (m = .microstep) && c.pwm.isNone)) := by
  have hpwm : (constructed c).hasPwm = !c.pwm.isNone := by
    rw [State.hasPwm, constructed, emitAll_pwm]
    cases hu : c.pwm <;> simp [latchInputs, hu]
  rw [assertsRow, hpwm]
  cases m <;> simp [isDiscrete, isUnrecognized]

/-- Settles O47: construction leaves the stream empty and the cursor 0, an index of every cycle. -/
theorem firstCommandAfterReset : Obligations.FirstCommandAfterReset := by
  intro c hpins
  have hstream : (constructed c).stream = [] := emitAll_stream _ _
  refine ⟨_, construct_of_nodup hpins, waitingChangesNothing _ hstream, constructed_currentStep c, fun m d h => ?_⟩
  have hindex : wrappedIndex m (constructed c) = 0 := by
    rw [wrappedIndex, constructed_currentStep]; cases m <;> rfl
  have hasserts := assertsRow_constructed m c
  refine ⟨_, exec_ofStep_eq m d h _, stepEvents m d h (constructed c), emitAll_trace _ _, ?_⟩
  split
  next hsilent => exact stepEvents_of_no_assert d h (by rw [hasserts, hsilent]; rfl)
  next hloud => exact hindex ▸ rowsIn_stepEvents d h (by rw [hasserts, Bool.eq_false_of_not_eq_true hloud]; rfl)

end Sys2Proof.Machine
end

section
/-! What the pins hold after a STEP command, and the laws of the MICROSTEP ramp (spec/41_step_discrete.md,
spec/42_step_microstep.md section 4). The levels are those of the last row asserted, and a duty is the last one given. -/

namespace Sys2Proof.Machine

/-! ### Latches after a list of events (R30, R32) -/

@[simp] theorem emitAll_pins (s : State) (es : List Event) : (emitAll s es).pins = s.pins := by
  induction es generalizing s with
  | nil => rfl
  | cons e es ih => rw [emitAll_cons, ih, emit_pins]

/-- Events that assert no row leave every level. -/
theorem emitAll_level_of_no_rows {es : List Event} (h : rowsIn es = []) (s : State) : (emitAll s es).level = s.level := by
  induction es generalizing s with
  | nil => rfl
  | cons e es ih =>
    cases e with
    | assertCoils r => cases h
    | configureOutput p => exact ih h _
    | duty p v => exact ih h _
    | delay n => exact ih h _

/-- The coil pins hold the last row asserted. -/
theorem coilsHold_emitAll {s : State} (hpins : s.pins.Nodup) (es : List Event) (r : Row) {fs : List Event}
    (hfs : rowsIn fs = []) : coilsHold (emitAll s (es ++ .assertCoils r :: fs)) r := by
  have hrow := coilsHold_emit_assertCoils (s := emitAll s es) (by rwa [emitAll_pins]) r
  rw [emitAll_append, emitAll_cons]
  simpa only [coilsHold, emitAll_level_of_no_rows hfs, emitAll_pinA1, emitAll_pinA2, emitAll_pinB1, emitAll_pinB2] using hrow

/-- The advance writes no level. -/
theorem coilsHold_advance {s : State} {r : Row} {d : Dir} {k : Nat} : coilsHold (advance d k s) r ↔ coilsHold s r := Iff.rfl

@[simp] theorem dutiesOn_append (p : Pin) (es fs : List Event) : dutiesOn p (es ++ fs) = dutiesOn p es ++ dutiesOn p fs :=
  List.filterMap_append

@[simp] theorem dutiesOn_assertCoils_cons (p : Pin) (r : Row) (es : List Event) :
    dutiesOn p (.assertCoils r :: es) = dutiesOn p es := rfl

/-- A pin holds the last duty it was given, or else the one it held. -/
theorem readPin_duty_emitAll (s : State) (es : List Event) (p : Pin) :
    readPin (emitAll s es).duty p = (dutiesOn p es).getLast?.or (readPin s.duty p) := by
  induction es generalizing s with
  | nil => rfl
  | cons e es ih =>
    rw [emitAll_cons, ih]
    cases e with
    | duty q v =>
      rw [emit_duty_duty, readPin_writePin]
      by_cases hq : p = q
      · subst hq
        cases hlast : (dutiesOn p es).getLast? <;> simp_all [dutiesOn, List.getLast?_cons]
      · simp [dutiesOn, hq, Ne.symm hq]
    | configureOutput q => rfl
    | assertCoils r => rfl
    | delay n => rfl

/-! ### The two PWM pins -/

/-- The PWM pin of a coil (R20). -/
def PwmUnit.pin (u : PwmUnit) : Coil → Pin
  | .a => u.pinA
  | .b => u.pinB

theorem pwmPins_ne {s : State} {u : PwmUnit} (hpins : s.pins.Nodup) (hu : s.pwm = some u) : u.pinA ≠ u.pinB := by
  have hpwm : s.pwmPins.Nodup := hpins.of_append_right
  simpa [State.pwmPins, hu] using hpwm

@[simp] theorem dutiesOn_holdDelay (p : Pin) (hold : Micros) : dutiesOn p (holdDelay hold) = [] := by
  unfold holdDelay; split <;> rfl

theorem dutiesOn_ceilingDuties {s : State} {u : PwmUnit} (hu : s.pwm = some u) (hne : u.pinA ≠ u.pinB) (c : Coil) :
    dutiesOn (u.pin c) (ceilingDuties s) = [u.dutyMax] := by
  cases c <;> simp [dutiesOn, ceilingDuties, PwmUnit.pin, hu, hne, hne.symm]

/-- The duties a MICROSTEP command gives a coil's PWM pin (R141). -/
def rampDuties (u : PwmUnit) (c : Coil) (d : Dir) (index : Nat) : List Byte :=
  (rampWalk d index).map fun i => scale (curve c i) u.pf

theorem dutiesOn_rampPoints {u : PwmUnit} (hne : u.pinA ≠ u.pinB) (c : Coil) (d : Dir) (hold : Micros) (index : Nat) :
    dutiesOn (u.pin c) (rampPoints u d hold index) = rampDuties u c d index := by
  rw [rampDuties, List.map_eq_flatMap]
  cases c <;> simp [dutiesOn, rampPoints, PwmUnit.pin, List.filterMap_flatMap, hne, hne.symm]

/-! ### The discrete commands -/

/-- A mode with a table has a row at the wrapped index (R101). -/
theorem exists_row_at_wrappedIndex {m : Mode} (hm : m ∈ [Mode.single, .double, .interleave, .microstep]) (s : State) :
    ∃ r, (stepTable m)[wrappedIndex m s]? = some r :=
  ⟨_, List.getElem?_eq_getElem ((wrappedIndex_lt m s).trans_eq (stepTable_length hm).symm)⟩

/-- Settles O22: the ceiling duties are the command's only duties, and its row the last one asserted. -/
theorem discreteCommandLatches : Obligations.DiscreteCommandLatches := by
  intro m hm d h s hpins
  have htable : m ∈ [Mode.single, .double, .interleave, .microstep] := List.mem_append_left [Mode.microstep] hm
  have hne : m ≠ .microstep := fun he => absurd (he ▸ hm) (by decide)
  obtain ⟨r, hr⟩ := exists_row_at_wrappedIndex htable s
  have he := exec_ofStep_eq m d h s
  rw [stepEvents_of_row d h hne hr] at he
  have hcoils := coilsHold_emitAll hpins (ceilingDuties s) r (rowsIn_holdDelay h)
  refine ⟨_, he, ⟨r, hr, coilsHold_advance.2 hcoils⟩, fun u hu => ?_⟩
  have hduty : ∀ c, readPin (emitAll s (ceilingDuties s ++ .assertCoils r :: holdDelay h)).duty (u.pin c) =
      some u.dutyMax := fun c => by
    rw [readPin_duty_emitAll, dutiesOn_append, dutiesOn_ceilingDuties hu (pwmPins_ne hpins hu)]; simp
  rw [dutiesHold, advance_duty]
  exact ⟨hduty .a, hduty .b⟩

/-! ### Commands that assert no row (R106, R140) -/

/-- A STEP in a mode that asserts no row moves the cursor and does nothing else. -/
theorem exec_of_no_assert {m : Mode} {s : State} (hrow : assertsRow m s = false) (d : Dir) (hold : Micros) :
    exec (Instr.ofStep m d hold) s = .next { s with currentStep := advanced d (wrappedIndex m s) } := by
  rw [exec_ofStep_eq, stepEvents_of_no_assert d hold hrow]; rfl

theorem advanced_wrappedIndex_toInt (m : Mode) (d : Dir) (s : State) :
    (advanced d (wrappedIndex m s)).toInt = wrappedIndex m s + dirSign d :=
  advanced_toInt ((wrappedIndex_lt m s).trans_le (cycleLength_bounds m).2) d

/-- Settles O26: without PWM, MICROSTEP asserts no row. -/
theorem microstepWithoutPwmOnlyMovesCursor : Obligations.MicrostepWithoutPwmOnlyMovesCursor := by
  intro d h s hpwm
  have hrow : assertsRow .microstep s = false := by simp [assertsRow, isDiscrete, hpwm]
  exact ⟨_, exec_of_no_assert hrow d h, advanced_wrappedIndex_toInt .microstep d s⟩

/-- Settles O32: an unrecognized mode asserts no row, and its cycle length is 4. -/
theorem unrecognizedModesOnlyMoveCursor : Obligations.UnrecognizedModesOnlyMoveCursor := by
  have hsilent : ∀ m ∈ [Mode.m0, .m5, .m6, .m7], ∀ s, assertsRow m s = false ∧ cycleLength m = 4 := by
    simp [assertsRow, isDiscrete, cycleLength]
  refine ⟨fun m hm d h s => ?_, fun s hs => ⟨by decide, ?_⟩⟩
  · obtain ⟨hrow, hlen⟩ := hsilent m hm s
    refine ⟨_, exec_of_no_assert hrow d h, ?_⟩
    rw [advanced_wrappedIndex_toInt, wrappedIndex_cast, hlen]
    cases d <;> rfl
  · have hindex : wrappedIndex .m5 s = 0 := by rw [wrappedIndex, hs]; rfl
    have he := exec_of_no_assert (m := .m5) (hsilent _ (by decide) s).1 .forward 100
    rw [hindex] at he
    exact he

/-! ### The MICROSTEP command with PWM -/

/-- MICROSTEP emits its row and its ramp points, and advances (R141). -/
theorem exec_microstep_eq {s : State} {u : PwmUnit} (hu : s.pwm = some u) (d : Dir) (hold : Micros) :
    ∃ r, (stepTable .microstep)[wrappedIndex .microstep s]? = some r ∧
      exec (.stepMicrostep d hold) s = .next (advance d (wrappedIndex .microstep s)
        (emitAll s (.assertCoils r :: rampPoints u d hold (wrappedIndex .microstep s)))) := by
  obtain ⟨r, hr⟩ := exists_row_at_wrappedIndex (m := .microstep) (by decide) s
  exact ⟨r, hr, stepEvents_microstep d hold hu hr ▸ exec_ofStep_eq .microstep d hold s⟩

/-- A full step has 8 ramp points of 3 events each. -/
theorem rampPoints_length (u : PwmUnit) (d : Dir) (hold : Micros) (index : Nat) :
    (rampPoints u d hold index).length = 24 := by
  simp [rampPoints, rampWalk, List.range_succ]

/-- Settles O25: a row and 8 ramp points with PWM, nothing without. -/
theorem microstepEventCount : Obligations.MicrostepEventCount := by
  intro d h s
  cases hu : s.pwm with
  | none =>
    obtain ⟨t, he, htrace⟩ := microstep_noPwm_appends_nothing hu d h
    exact ⟨t, he, by simp [htrace, State.hasPwm, hu]⟩
  | some u =>
    obtain ⟨t, he, r, -, htrace⟩ := microstep_appends hu d h
    exact ⟨t, he, by simp [htrace, State.hasPwm, hu, rampPoints_length]⟩

theorem rampWalk_getLast? (d : Dir) (index : Nat) :
    (rampWalk d index).getLast? = some (if d = .forward then 8 * index + 7 else 8 * index) := by
  rw [rampWalk, List.getLast?_map, show (List.range 8).getLast? = some 7 from rfl]
  cases d <;> simp [rampIndex]

/-- Settles O27: the row is the last one asserted, and each pin's last duty is that of the last ramp point. -/
theorem microstepCommandLatches : Obligations.MicrostepCommandLatches := by
  intro d h s u hpins hu
  obtain ⟨r, hr, he⟩ := exec_microstep_eq hu d h
  have hcoils := coilsHold_emitAll hpins [] r (rowsIn_rampPoints u d h (wrappedIndex .microstep s))
  rw [List.nil_append] at hcoils
  have hduty : ∀ c, readPin (emitAll s (.assertCoils r :: rampPoints u d h (wrappedIndex .microstep s))).duty (u.pin c) =
      some (scale (curve c (if d = .forward then 8 * wrappedIndex .microstep s + 7 else 8 * wrappedIndex .microstep s))
        u.pf) := fun c => by
    rw [readPin_duty_emitAll, dutiesOn_assertCoils_cons, dutiesOn_rampPoints (pwmPins_ne hpins hu), rampDuties,
      List.getLast?_map, rampWalk_getLast?]
    rfl
  refine ⟨_, he, ⟨r, hr, coilsHold_advance.2 hcoils⟩, ?_⟩
  rw [dutiesHold, advance_duty]
  exact ⟨hduty .a, hduty .b⟩

/-! ### The laws of the ramp (R144 to R148) -/

/-- BACKWARD walks the same points from the other end. -/
theorem rampWalk_backward (index : Nat) : rampWalk .backward index = (rampWalk .forward index).reverse := by
  refine List.ext_getElem (by simp [rampWalk]) fun k hk _ => ?_
  simp only [rampWalk, List.length_map, List.length_range] at hk
  simp only [rampWalk, List.getElem_reverse, List.getElem_map, List.getElem_range, List.length_map, List.length_range,
    rampIndex]
  omega

theorem rampDuties_backward (u : PwmUnit) (c : Coil) (index : Nat) :
    rampDuties u c .backward index = (rampDuties u c .forward index).reverse := by
  rw [rampDuties, rampWalk_backward, List.map_reverse, rampDuties]

/-- Settles O28: the walks are one another reversed, and so the duties read along them. -/
theorem microstepDirectionSymmetry : Obligations.MicrostepDirectionSymmetry := by
  intro h s u hu hne
  obtain ⟨t, ht, r, -, htrace⟩ := microstep_appends hu .forward h
  obtain ⟨t', ht', r', -, htrace'⟩ := microstep_appends hu .backward h
  have hduties : ∀ c, dutiesOn (u.pin c) (.assertCoils r' :: rampPoints u .backward h (wrappedIndex .microstep s)) =
      (dutiesOn (u.pin c) (.assertCoils r :: rampPoints u .forward h (wrappedIndex .microstep s))).reverse := fun c => by
    simp only [dutiesOn_assertCoils_cons, dutiesOn_rampPoints hne, rampDuties_backward]
  exact ⟨rfl, rampWalk_backward _, t, ht, t', ht', _, _, htrace, htrace', hduties .a, hduties .b⟩

/-- The pause loses nothing in its register. -/
theorem rampHold_toNat (hold : Micros) : (rampHold hold).toNat = hold.toNat / 8 := by
  have := hold.isLt
  rw [rampHold, BitVec.toNat_ofNat]
  omega

/-- One pause follows each of the 8 ramp points. -/
theorem delaysIn_rampPoints (u : PwmUnit) (d : Dir) (hold : Micros) (index : Nat) :
    delaysIn (rampPoints u d hold index) = List.replicate 8 (hold.toNat / 8) := by
  simp [delaysIn, rampPoints, rampWalk, rampHold_toNat, List.range_succ]

/-- Settles O29: eight pauses of `hold div 8`, each after the pair of duties of its ramp point. -/
theorem microstepDelays : Obligations.MicrostepDelays := by
  intro d h s u hu
  obtain ⟨t, ht, r, -, htrace⟩ := microstep_appends hu d h
  have hdelays := delaysIn_rampPoints u d h (wrappedIndex .microstep s)
  have hsum : (List.replicate 8 (h.toNat / 8)).sum = 8 * (h.toNat / 8) := by rw [List.sum_replicate, smul_eq_mul]
  refine ⟨t, ht, _, htrace, ?_⟩
  rw [delaysIn_assertCoils_cons, hdelays, hsum]
  refine ⟨rfl, rfl, by omega, by omega, r,
    (rampWalk d (wrappedIndex .microstep s)).map fun i => (scale (curve .a i) u.pf, scale (curve .b i) u.pf), ?_⟩
  rw [List.flatMap_map]
  rfl

section ramp
variable {c : Coil} {index : Nat} (u : PwmUnit)

/-- Over a window its curve rises in, a coil's duties do not decrease along the FORWARD ramp. -/
theorem rampDuties_pairwise_le (h : curveRises c index = true) :
    ((rampDuties u c .forward index).map BitVec.toNat).Pairwise (· ≤ ·) := by
  rw [rampDuties, rampWalk, List.map_map, List.map_map, List.pairwise_map]
  refine List.pairwise_lt_range.imp_of_mem fun {j k} _ hk hjk => scale_toNat_mono ?_ le_rfl
  rw [List.mem_range] at hk
  simp only [rampIndex]
  exact curve_le_of_rises (k := index) (by omega) (by omega) (by omega) h

/-- Over a window its curve falls in, a coil's duties do not increase along the FORWARD ramp. -/
theorem rampDuties_pairwise_ge (h : curveRises c index = false) :
    ((rampDuties u c .forward index).map BitVec.toNat).Pairwise (· ≥ ·) := by
  rw [rampDuties, rampWalk, List.map_map, List.map_map, List.pairwise_map]
  refine List.pairwise_lt_range.imp_of_mem fun {j k} _ hk hjk => scale_toNat_mono ?_ le_rfl
  rw [List.mem_range] at hk
  simp only [rampIndex]
  exact curve_ge_of_falls (k := index) (by omega) (by omega) (by omega) h

/-- At full power the FORWARD ramp of window 1 runs between the entries R60 fixes. -/
theorem rampDuties_ends (hpf : u.pf = 1) :
    (rampDuties u c .forward 1).head? = some (curve c 8) ∧ (rampDuties u c .forward 1).getLast? = some (curve c 15) := by
  rw [rampDuties, List.getLast?_map, rampWalk_getLast?, hpf]
  simp [rampWalk, rampIndex, List.range_succ]

end ramp

/-- Settles O30: by the direction of the window; window 1 rises for coil A, between the fixed entries. -/
theorem microstepOpposingRamp : Obligations.MicrostepOpposingRamp := by
  intro h s u hu hne
  obtain ⟨t, ht, r, -, htrace⟩ := microstep_appends hu .forward h
  refine ⟨t, ht, _, htrace, ?_⟩
  have ha := dutiesOn_rampPoints hne .a .forward h (wrappedIndex .microstep s)
  have hb := dutiesOn_rampPoints hne .b .forward h (wrappedIndex .microstep s)
  simp only [PwmUnit.pin] at ha hb
  simp only [dutiesOn_assertCoils_cons, ha, hb]
  refine ⟨by simp [rampDuties, rampWalk], by simp [rampDuties, rampWalk], ?_, fun hindex => ?_⟩
  · cases hdir : curveRises .a (wrappedIndex .microstep s) with
    | true =>
      exact .inl ⟨rampDuties_pairwise_le u hdir, rampDuties_pairwise_ge u (by rw [curveRises_b, hdir]; rfl)⟩
    | false =>
      exact .inr ⟨rampDuties_pairwise_ge u hdir, rampDuties_pairwise_le u (by rw [curveRises_b, hdir]; rfl)⟩
  · rw [hindex]
    refine ⟨rampDuties_pairwise_le u rfl, rampDuties_pairwise_ge u rfl, fun hpf => ?_⟩
    obtain ⟨ha8, hb8, ha15, hb15⟩ := curve_fixed_entries
    obtain ⟨haHead, haLast⟩ := rampDuties_ends (c := .a) u hpf
    obtain ⟨hbHead, hbLast⟩ := rampDuties_ends (c := .b) u hpf
    simp only [List.head?_map, List.getLast?_map, haHead, haLast, hbHead, hbLast, ha8, hb8, ha15, hb15]
    decide

/-- Settles O31: the row is emitted first, and the ramp points assert no other. -/
theorem dutiesInForceAtMicrostepRow : Obligations.DutiesInForceAtMicrostepRow := by
  intro d h s u hu
  obtain ⟨r, -, he⟩ := exec_microstep_eq hu d h
  refine ⟨_, he, r, rampPoints u d h (wrappedIndex .microstep s), ?_, rowsIn_rampPoints u d h _, ?_,
    emit_assertCoils_duty s r⟩
  · rw [advance_trace, emitAll_trace]
  · rw [advance_duty, emitAll_cons]

end Sys2Proof.Machine
end
